-- ==== Sys2Proof/Word.lean ====
section
/-! DEFINITION. The machine's word types (spec/00_scope.md R15, R16; spec/10_state.md R20).
Bit 0 is the least significant bit of every value. -/
namespace Sys2Proof

/-- The contents of one general register and of one location of the data space: 8 bits (R20, R41). -/
abbrev Byte := BitVec 8

/-- One word of program memory, the unit of instruction length: 16 bits (R44, R60).
Also the value of a register pair (R23). -/
abbrev Word := BitVec 16

/-- A byte address in the data space: 16 bits (R42). -/
abbrev Addr := BitVec 16

/-- The number of a general register, `R0` to `R31` (R20). -/
abbrev Reg := Fin 32

end Sys2Proof
end

