-- ==== Sys2Proof/Config.lean ====
section
/-! DEFINITION. What a device fixes (the open parameters of spec/00_scope.md section 4) and the free value.

The spec leaves `CORE`, `AVAILABLE`, `PC_BITS`, `FLASH_WORDS`, `DATA_MAP`, `START_PC`, `END_PC` and `ADMIT_PARTIAL`
open: "the point stays a named parameter the model takes as an argument" (spec/92_eei_decisions.md).  A step takes one
argument, the state, so the parameters stand in it as one record of plain data, `Params`, which no step changes: a
statement about every state is a statement about every device (log entry 1). -/
namespace Sys2Proof

/-- `CORE`: the four core variants the source names (R2, R10). -/
inductive CoreVariant where
  | avre | avrxm | avrxt | avrrc
  deriving DecidableEq, Repr

/-- What a range of the data space holds: registers from number `first` upward, I/O locations from number `first`
upward, or RAM (R13). An address in no range is unmapped. -/
inductive MapKind where
  | regs (first : Nat)
  | io (first : Nat)
  | sram
  deriving DecidableEq, Repr

/-- The addresses `lo` to `hi`, both included, hold what `kind` says. -/
structure MapRange where
  lo : Nat
  hi : Nat
  kind : MapKind
  deriving DecidableEq, Repr

/-- What stands at one data address: the codomain of `DATA_MAP` (R13). -/
inductive Target where
  | reg (i : Reg)
  | io (j : Nat)
  | sram
  | unmapped
  deriving DecidableEq, Repr

/-- The open parameters of the spec, as plain data.

* `core` is `CORE` (R10).
* `hasAdiw`, `hasLds`, `hasMovw`, `hasLdd` are the entries of `AVAILABLE` the source does not fix (R11, D1; log
  entry 26).
* `pcBits`, `flashWords` are `PC_BITS`, `FLASH_WORDS` (R12).
* `dataMap` is `DATA_MAP` (R13), its ranges in order, the first that holds an address deciding it (log entry 27).
* `startPc`, `endPc` are `START_PC`, `END_PC` (R161, R163).
* `admitPartial` is `ADMIT_PARTIAL` (D18).

`HAS_RAMPD` is fixed to false by R14 (log entry 23) and `UNINIT_POLICY` to its default `free` (log entry 7), so
neither is here. -/
structure Params where
  core : CoreVariant
  hasAdiw : Bool
  hasLds : Bool
  hasMovw : Bool
  hasLdd : Bool
  pcBits : Nat
  flashWords : Nat
  dataMap : List MapRange
  startPc : Nat
  endPc : Nat
  admitPartial : Bool
  deriving DecidableEq, Repr

/-- What R12 and R161 ask of the parameters: `FLASH_WORDS <= 2^PC_BITS` and `START_PC < FLASH_WORDS`. -/
abbrev Params.Wf (p : Params) : Prop :=
  p.flashWords ≤ 2 ^ p.pcBits ∧ p.startPc < p.flashWords

/-- The parameters of the state after reset: a device of the classic megaAVR layout of 93_implementation_defined.md G6
(registers at 0x0000, 64 I/O registers at 0x0020, RAM from 0x0060), with every instruction, program memory of 65536
words, and the partly specified instructions admitted (log entry 10). PRESUMED (log entry 2). -/
def Params.classic : Params where
  core := .avre
  hasAdiw := true
  hasLds := true
  hasMovw := true
  hasLdd := true
  pcBits := 16
  flashWords := 65536
  dataMap := [⟨0x0000, 0x001F, .regs 0⟩, ⟨0x0020, 0x005F, .io 0⟩, ⟨0x0060, 0xFFFF, .sram⟩]
  startPc := 0
  endPc := 65536
  admitPartial := true

/-- `draw8()`: the byte an I/O location answers at the `n`-th read of one (R43, R49). A free value: it has no body, and
nothing can be proved of it but that it is a byte (log entry 4). -/
opaque Config.drawByte : Nat → Byte

end Sys2Proof
end

