-- ==== Sys2Proof/Machine/State.lean ====
section
/-! DEFINITION. The machine's state and the reasons a step can stop (spec/10_state.md, spec/60_exceptions.md R140,
R141). -/
namespace Sys2Proof.Machine

/-- The Status Register: eight one-bit flags in the order every SREG table lists them (R31). They are eight separate
bits (D12), and `S` is a stored bit of its own (R32). -/
structure Sreg where
  I : Bool
  T : Bool
  H : Bool
  S : Bool
  V : Bool
  N : Bool
  Z : Bool
  C : Bool
  deriving DecidableEq, Repr

/-- The words of program memory that differ from a blank word, at strictly rising word addresses (R44). -/
abbrev ProgCell := Nat × Word

/-- Everything the spec gives the machine, the device's parameters, and one field of the model's own (`draws`). -/
structure State where
  /-- The general registers `R0` to `R31` (R20). -/
  regs : Vector Byte 32
  /-- The program counter, a word address and a natural number (R27, R29). -/
  pc : Nat
  /-- The Status Register (R31). -/
  sreg : Sreg
  /-- The bytes of RAM in the data space, `DS` (R41), those that differ from a blank byte, at strictly rising
  addresses. -/
  data : List Host.Cell
  /-- Program memory, `PM` (R44). -/
  prog : List ProgCell
  /-- The model's own: how many bytes `draw8()` has answered, the argument of the free value (log entry 4). -/
  draws : Nat
  /-- The device's parameters, which no step changes (log entry 1). -/
  params : Params
  deriving DecidableEq, Repr

/-- The reasons the machine stops with a fault: none. The source defines no exception, trap or fault (R140, R145; log
entry 17), and the spec's stops are refusals, "not an event of the chip" (R141). -/
inductive Fault where
  deriving DecidableEq, Repr

/-- The reasons a step is given no meaning: the closed list of R141, and two of the model's own. Every one is safe: the
machine stops where the chip goes on, and nothing can be claimed past it. -/
inductive Refusal where
  /-- An arm of `exec` that has no meaning yet. No arm is left so. Safe. -/
  | notModelled (mnemonic : String)
  /-- Raised by the fetch when `pc`, or the address of the second word of LDS, is `FLASH_WORDS` or above (R44). Safe. -/
  | fetchOutsideProgramMemory
  /-- Raised by the fetch when the first word is in no admitted row of the opcode map (R75). Safe. -/
  | noRuleForWord
  /-- Raised by ADIW, LDS, MOVW and LDD with `q` not 0, and by the fetch of a cut-off LDS, where `AVAILABLE` is false (R11, R75).
  Safe. -/
  | instructionNotAvailable
  /-- Raised by every load of an address `DATA_MAP` classes as unmapped (R43). Safe. -/
  | unmappedDataAddress
  /-- Raised by a store to an I/O or unmapped address; no instruction stores (R58). Safe. -/
  | unmodelledStoreTarget
  /-- Raised by `LD r30,Z+` and `LD r31,Z+` (R102, R105). Safe. -/
  | ldPostincIntoZ
  /-- Raised by `LD r30,-Z` and `LD r31,-Z` (R103, R105). Safe. -/
  | ldPredecIntoZ
  /-- Raised by `LD Rd,Z+` at Z = 0xFFFF (R102, R105). Safe. -/
  | zPointerOverflow
  /-- Raised by `LD Rd,-Z` at Z = 0x0000 (R103, R105). Safe. -/
  | zPointerUnderflow
  /-- Raised by `LDD Rd,Z+q` when Z + q is above 0xFFFF (R104, R105). Safe. -/
  | zDisplacementOverflow
  /-- The model's own: raised by ADIW, ANDI, LDI and MOVW given a register no encoding of theirs can name (R79). No word
  decodes to such an instruction, so no step answers it. Safe. -/
  | operandOutOfRange
  deriving DecidableEq, Repr

/-- What a step or a meaning answers. -/
abbrev Result := Host.Outcome State Fault Refusal

/-- The machine right after reset. The source gives no reset value for anything (R160): the values here are the
model's, `SREG` and `pc` those of the family (93_implementation_defined.md G4), the rest zero or empty (log entries
2 and 3). -/
def State.reset : State where
  regs := Vector.replicate 32 0x00#8
  pc := 0
  sreg := ⟨false, false, false, false, false, false, false, false⟩
  data := []
  prog := []
  draws := 0
  params := Params.classic

end Sys2Proof.Machine
end

