-- ==== Sys2Proof/Machine/Flags.lean ====
section
/-! DEFINITION. The flag computations, each transcribed from the Boolean formulas of its rule (with the repairs of
90_conflicts.md C1, C2 and C4; log entry 25). A flag a formula does not name keeps its value (R18, R33; log entry 29).
-/
namespace Sys2Proof.Machine

/-- `S`, `V`, `N`, `Z` and `C` written, with `S <- N ^ V` of the `N` and `V` written in the same step (R32). -/
def Sreg.setSVNZC (f : Sreg) (v n z c : Bool) : Sreg :=
  { f with S := n ^^ v, V := v, N := n, Z := z, C := c }

/-- The flags of ADD (R80): `a`, `b` the operands before, `res` the result. -/
def addFlags (a b res : Byte) (f : Sreg) : Sreg :=
  let g := f.setSVNZC
    ((a.getLsbD 7 && b.getLsbD 7 && !res.getLsbD 7) || (!a.getLsbD 7 && !b.getLsbD 7 && res.getLsbD 7))
    (res.getLsbD 7)
    (res == 0)
    ((a.getLsbD 7 && b.getLsbD 7) || (b.getLsbD 7 && !res.getLsbD 7) || (!res.getLsbD 7 && a.getLsbD 7))
  { g with
    H := (a.getLsbD 3 && b.getLsbD 3) || (b.getLsbD 3 && !res.getLsbD 3) || (!res.getLsbD 3 && a.getLsbD 3) }

/-- The flags of ADIW (R84): `x` the pair before, `res` the result. `H` is not affected. -/
def adiwFlags (x res : Word) (f : Sreg) : Sreg :=
  f.setSVNZC (!x.getLsbD 15 && res.getLsbD 15) (res.getLsbD 15) (res == 0) (!res.getLsbD 15 && x.getLsbD 15)

/-- The flags of AND and ANDI (R90, R93): `V` cleared, `C` and `H` not affected. -/
def logicFlags (res : Byte) (f : Sreg) : Sreg :=
  f.setSVNZC false (res.getLsbD 7) (res == 0) f.C

/-- The flags of LSR (R115): `a` the register before, `res` the result; `N` cleared, `V <- N ^ C` after the shift. -/
def lsrFlags (a res : Byte) (f : Sreg) : Sreg :=
  f.setSVNZC (false ^^ a.getLsbD 0) false (res == 0) (a.getLsbD 0)

/-- `SREG` as the eight bits `ITHSVNZC`, `I` in bit 7 and `C` in bit 0, the form in which 95_test_vectors.md prints it.
No instruction reads or writes `SREG` as a byte (R35). -/
def Sreg.toByte (f : Sreg) : Byte :=
  BitVec.ofBool f.I ++ BitVec.ofBool f.T ++ BitVec.ofBool f.H ++ BitVec.ofBool f.S ++
    BitVec.ofBool f.V ++ BitVec.ofBool f.N ++ BitVec.ofBool f.Z ++ BitVec.ofBool f.C

/-- The flags printed as the eight bits `b` (R35). -/
def Sreg.ofByte (b : Byte) : Sreg :=
  ⟨b.getLsbD 7, b.getLsbD 6, b.getLsbD 5, b.getLsbD 4, b.getLsbD 3, b.getLsbD 2, b.getLsbD 1, b.getLsbD 0⟩

end Sys2Proof.Machine
end

