-- ==== Sys2Proof/Syntax.lean ====
section
/-! DEFINITION. The instructions, one constructor per row of spec/opcode_table.json, in the table's order. -/
namespace Sys2Proof

/-- The thirteen rows of the opcode table (R72): the names `AVAILABLE` ranges over (R11). -/
inductive Mnemonic where
  | movw | add | and | mov | andi | lds | adiw | ldi | ldZ | ldZInc | ldZDec | lddZ | lsr
  deriving DecidableEq, Repr

/-- An instruction with its operands as the manual numbers them: `d` and `r` are register numbers (for a pair, that of
its low register), `K` and `q` constants, `k` a data address. The ranges of R79 are `Instr.wf`. -/
inductive Instr where
  /-- `MOVW Rd+1:Rd,Rr+1:Rr` (R122) -/
  | movw (d r : Reg)
  /-- `ADD Rd,Rr` (R80) -/
  | add (d r : Reg)
  /-- `AND Rd,Rr` (R90) -/
  | and (d r : Reg)
  /-- `MOV Rd,Rr` (R120) -/
  | mov (d r : Reg)
  /-- `ANDI Rd,K` (R93) -/
  | andi (d : Reg) (K : BitVec 8)
  /-- `LDS Rd,k` (R108), the only instruction of two words -/
  | lds (d : Reg) (k : Addr)
  /-- `ADIW Rd+1:Rd,K` (R84) -/
  | adiw (d : Reg) (K : BitVec 6)
  /-- `LDI Rd,K` (R106) -/
  | ldi (d : Reg) (K : BitVec 8)
  /-- `LD Rd,Z` (R101) -/
  | ldZ (d : Reg)
  /-- `LD Rd,Z+` (R102) -/
  | ldZInc (d : Reg)
  /-- `LD Rd,-Z` (R103) -/
  | ldZDec (d : Reg)
  /-- `LDD Rd,Z+q` (R104) -/
  | lddZ (d : Reg) (q : BitVec 6)
  /-- `LSR Rd` (R115) -/
  | lsr (d : Reg)
  deriving DecidableEq, Repr

/-- The row an instruction belongs to. -/
def Instr.mnemonic : Instr → Mnemonic
  | .movw _ _ => .movw
  | .add _ _ => .add
  | .and _ _ => .and
  | .mov _ _ => .mov
  | .andi _ _ => .andi
  | .lds _ _ => .lds
  | .adiw _ _ => .adiw
  | .ldi _ _ => .ldi
  | .ldZ _ => .ldZ
  | .ldZInc _ => .ldZInc
  | .ldZDec _ => .ldZDec
  | .lddZ _ _ => .lddZ
  | .lsr _ => .lsr

/-- Whether a row is fully specified by the source (R6) or one of the five partly specified ones (R7). -/
def Mnemonic.fromSource : Mnemonic → Bool
  | .movw => true
  | .add => true
  | .and => true
  | .mov => true
  | .andi => true
  | .lds => true
  | .adiw => true
  | .ldi => true
  | .ldZ => false
  | .ldZInc => false
  | .ldZDec => false
  | .lddZ => false
  | .lsr => false

end Sys2Proof
end

