-- ==== Sys2Proof/WellFormed.lean ====
section
/-! DEFINITION. The operand ranges an assembler enforces (spec/30_encoding.md R79).
The ranges 0 to 31, 0 to 63, 0 to 255 and 0 to 65535 are the operands' types. -/
namespace Sys2Proof

/-- `16 <= d <= 31`: the registers an 8-bit immediate instruction can name (R22, R65). -/
def Reg.isUpper (d : Reg) : Bool := 16 ≤ d.val

/-- `d` in {0,2,...,30}: the low register of a pair of MOVW (R67). -/
def Reg.isEven (d : Reg) : Bool := d.val % 2 = 0

/-- `d` in {24,26,28,30}: the low register of a pair of ADIW (R66). -/
def Reg.isUpperPair (d : Reg) : Bool := 24 ≤ d.val ∧ d.val % 2 = 0

/-- An instruction that can be encoded (R79). -/
def Instr.wf : Instr → Bool
  | .movw d r => d.isEven && r.isEven
  | .add _ _ => true
  | .and _ _ => true
  | .mov _ _ => true
  | .andi d _ => d.isUpper
  | .lds _ _ => true
  | .adiw d _ => d.isUpperPair
  | .ldi d _ => d.isUpper
  | .ldZ _ => true
  | .ldZInc _ => true
  | .ldZDec _ => true
  | .lddZ _ _ => true
  | .lsr _ => true

end Sys2Proof
end

