-- ==== Sys2Proof/Decode.lean ====
section
/-! DEFINITION. From program words to an instruction and back (spec/30_encoding.md).
The unit of decoding is the 16-bit word: program memory has no byte addresses (R46, D6; log entry 14). How a picture's
letters are the bits of a word is R61 (log entry 13). -/
namespace Sys2Proof

/-- One row of the opcode map of R72: a first word `w` is the row's when `w &&& mask = pattern`. -/
structure OpcodeRow where
  name : Mnemonic
  mask : Word
  pattern : Word
  words : Nat
  deriving DecidableEq, Repr

/-- The opcode map (R72), row by row as the spec lists it, but that `LDD Rd,Z+q` stands before `LD Rd,Z`: every word of
`LD Rd,Z` is also a word of `LDD Rd,Z+q`, and is decoded once, as LDD with `q = 0` (R73). -/
def opcodeMap : List OpcodeRow :=
  [ ⟨.movw,   0xFF00#16, 0x0100#16, 1⟩,
    ⟨.add,    0xFC00#16, 0x0C00#16, 1⟩,
    ⟨.and,    0xFC00#16, 0x2000#16, 1⟩,
    ⟨.mov,    0xFC00#16, 0x2C00#16, 1⟩,
    ⟨.andi,   0xF000#16, 0x7000#16, 1⟩,
    ⟨.lds,    0xFE0F#16, 0x9000#16, 2⟩,
    ⟨.adiw,   0xFF00#16, 0x9600#16, 1⟩,
    ⟨.ldi,    0xF000#16, 0xE000#16, 1⟩,
    ⟨.lddZ,   0xD208#16, 0x8000#16, 1⟩,
    ⟨.ldZ,    0xFE0F#16, 0x8000#16, 1⟩,
    ⟨.ldZInc, 0xFE0F#16, 0x9001#16, 1⟩,
    ⟨.ldZDec, 0xFE0F#16, 0x9002#16, 1⟩,
    ⟨.lsr,    0xFE0F#16, 0x9406#16, 1⟩ ]

/-- Whether a first word is one of a row's words (R72). -/
def OpcodeRow.matchesWord (r : OpcodeRow) (w : Word) : Bool := w &&& r.mask == r.pattern

/-- The row of a first word, if any (R72, R75). -/
def rowOf (w : Word) : Option OpcodeRow := opcodeMap.find? (·.matchesWord w)

/-- A five-bit register field names its register directly (R64). -/
def reg5 (f : BitVec 5) : Reg := ⟨f.toNat, f.isLt⟩

/-- A four-bit upper-register field `f` names register `16 + f` (R65). -/
def reg16 (f : BitVec 4) : Reg := ⟨16 + f.toNat, by have := f.isLt; omega⟩

/-- A four-bit pair field `f` of MOVW names the pair at register `2 * f` (R67). -/
def regEven (f : BitVec 4) : Reg := ⟨2 * f.toNat, by have := f.isLt; omega⟩

/-- A two-bit pair field `f` of ADIW names the pair at register `24 + 2 * f` (R66). -/
def regPair24 (f : BitVec 2) : Reg := ⟨24 + 2 * f.toNat, by have := f.isLt; omega⟩

/-- `d = word[8:4]` (R64). -/
def fieldD5 (w : Word) : BitVec 5 := w.extractLsb' 4 5

/-- `r = word[9] : word[3:0]` (R64). -/
def fieldR5 (w : Word) : BitVec 5 := w.extractLsb' 9 1 ++ w.extractLsb' 0 4

/-- `dddd = word[7:4]` (R65, R67). -/
def fieldD4 (w : Word) : BitVec 4 := w.extractLsb' 4 4

/-- `rrrr = word[3:0]` (R67). -/
def fieldR4 (w : Word) : BitVec 4 := w.extractLsb' 0 4

/-- `dd = word[5:4]` (R66). -/
def fieldD2 (w : Word) : BitVec 2 := w.extractLsb' 4 2

/-- `K = word[11:8] : word[3:0]` (R68). -/
def fieldK8 (w : Word) : BitVec 8 := w.extractLsb' 8 4 ++ w.extractLsb' 0 4

/-- `K = word[7:6] : word[3:0]` (R69). -/
def fieldK6 (w : Word) : BitVec 6 := w.extractLsb' 6 2 ++ w.extractLsb' 0 4

/-- `q = word[13] : word[11:10] : word[2:0]` (R71). -/
def fieldQ6 (w : Word) : BitVec 6 := w.extractLsb' 13 1 ++ w.extractLsb' 10 2 ++ w.extractLsb' 0 3

/-- The operands of a row's instruction, from its first word and, for LDS, its second (R63 to R71). -/
def operandsOf (m : Mnemonic) (w w2 : Word) : Instr :=
  match m with
  | .movw => .movw (regEven (fieldD4 w)) (regEven (fieldR4 w))
  | .add => .add (reg5 (fieldD5 w)) (reg5 (fieldR5 w))
  | .and => .and (reg5 (fieldD5 w)) (reg5 (fieldR5 w))
  | .mov => .mov (reg5 (fieldD5 w)) (reg5 (fieldR5 w))
  | .andi => .andi (reg16 (fieldD4 w)) (fieldK8 w)
  | .lds => .lds (reg5 (fieldD5 w)) w2
  | .adiw => .adiw (regPair24 (fieldD2 w)) (fieldK6 w)
  | .ldi => .ldi (reg16 (fieldD4 w)) (fieldK8 w)
  | .ldZ => .ldZ (reg5 (fieldD5 w))
  | .ldZInc => .ldZInc (reg5 (fieldD5 w))
  | .ldZDec => .ldZDec (reg5 (fieldD5 w))
  | .lddZ => .lddZ (reg5 (fieldD5 w)) (fieldQ6 w)
  | .lsr => .lsr (reg5 (fieldD5 w))

/-- Why words are no instruction: there is no word, the first word is in no row (R75), or the second word of a two-word
row is missing (R62). -/
inductive DecodeError where
  | noWord
  | noRow
  | truncated (m : Mnemonic)
  deriving DecidableEq, Repr

/-- The instruction at the head of a list of program words, with the words after it (R62, R72). -/
def decode : List Word → Except DecodeError (Instr × List Word)
  | [] => .error .noWord
  | w :: rest =>
    match rowOf w with
    | none => .error .noRow
    | some row =>
      if row.words = 1 then .ok (operandsOf row.name w 0, rest)
      else
        match rest with
        | [] => .error (.truncated row.name)
        | w2 :: rest2 => .ok (operandsOf row.name w w2, rest2)

/-- The length of an instruction in words (R60): LDS has two, every other instruction one. -/
def Instr.words : Instr → Nat
  | .movw _ _ => 1
  | .add _ _ => 1
  | .and _ _ => 1
  | .mov _ _ => 1
  | .andi _ _ => 1
  | .lds _ _ => 2
  | .adiw _ _ => 1
  | .ldi _ _ => 1
  | .ldZ _ => 1
  | .ldZInc _ => 1
  | .ldZDec _ => 1
  | .lddZ _ _ => 1
  | .lsr _ => 1

/-- The five bits of a register number (R64). -/
def bits5 (d : Reg) : BitVec 5 := BitVec.ofNat 5 d.val

/-- Format RdRr of R63 with `opc` in bits 15 to 10. -/
def formatRdRr (opc : BitVec 6) (d r : Reg) : Word :=
  opc ++ (bits5 r).extractLsb' 4 1 ++ bits5 d ++ (bits5 r).extractLsb' 0 4

/-- Format RdK8 of R63 with `opc` in bits 15 to 12; the register is `16 + dddd` (R65). -/
def formatRdK8 (opc : BitVec 4) (d : Reg) (K : BitVec 8) : Word :=
  opc ++ K.extractLsb' 4 4 ++ BitVec.ofNat 4 (d.val - 16) ++ K.extractLsb' 0 4

/-- A picture with the five bits of `d` in bits 8 to 4 between fixed bits (R63 Rd5k16, R71). -/
def formatRd5 (opc : BitVec 7) (d : Reg) (low : BitVec 4) : Word :=
  opc ++ bits5 d ++ low

/-- The words of an instruction, picture by picture (R63, R71); meant for a well-formed one. -/
def encode : Instr → List Word
  | .movw d r => [0b00000001#8 ++ BitVec.ofNat 4 (d.val / 2) ++ BitVec.ofNat 4 (r.val / 2)]
  | .add d r => [formatRdRr 0b000011#6 d r]
  | .and d r => [formatRdRr 0b001000#6 d r]
  | .mov d r => [formatRdRr 0b001011#6 d r]
  | .andi d K => [formatRdK8 0b0111#4 d K]
  | .lds d k => [formatRd5 0b1001000#7 d 0b0000#4, k]
  | .adiw d K =>
    [0b10010110#8 ++ K.extractLsb' 4 2 ++ BitVec.ofNat 2 ((d.val - 24) / 2) ++ K.extractLsb' 0 4]
  | .ldi d K => [formatRdK8 0b1110#4 d K]
  | .ldZ d => [formatRd5 0b1000000#7 d 0b0000#4]
  | .ldZInc d => [formatRd5 0b1001000#7 d 0b0001#4]
  | .ldZDec d => [formatRd5 0b1001000#7 d 0b0010#4]
  | .lddZ d q =>
    [0b10#2 ++ q.extractLsb' 5 1 ++ 0b0#1 ++ q.extractLsb' 3 2 ++ 0b0#1 ++ bits5 d ++ 0b0#1 ++ q.extractLsb' 0 3]
  | .lsr d => [formatRd5 0b1001010#7 d 0b0110#4]

/-- The `j`-th word of an instruction whose bits are the low `nbits` bits of `w`, first word lowest. -/
def wordOfBits (nbits w j : Nat) : Word := BitVec.ofNat 16 (w % 2 ^ nbits / 2 ^ (16 * j))

/-- The instruction whose bits are `w`, numbered as spec/opcode_table.json numbers them. -/
def decodeTableWord (nbits w : Nat) : Option Instr :=
  match decode [wordOfBits nbits w 0, wordOfBits nbits w 1] with
  | .ok (i, _) => some i
  | .error _ => none

end Sys2Proof
end

