-- ==== Sys2Proof/Machine/Ops.lean ====
section
/-! DEFINITION. The named operations over registers, the two memories and the parameters.

The source defines no exception, trap or interrupt entry and no return from one (R140, R143, R145), so there is no
operation that takes an exception: what the spec has instead is refusal (R141). -/
namespace Sys2Proof.Machine

/-! ### Cells: a memory as a list in one canonical form -/

/-- What the cells hold at address `x`; an address not listed reads as `blank`. -/
def readCell {n : Nat} (blank : BitVec n) : List (Nat × BitVec n) → Nat → BitVec n
  | [], _ => blank
  | (a, v) :: rest, x => if x = a then v else readCell blank rest x

/-- The cell for address `x` with value `v`, before the cells `rest`: none when `v` is what an unlisted address reads
as. -/
def consCell {n : Nat} (blank : BitVec n) (x : Nat) (v : BitVec n) (rest : List (Nat × BitVec n)) :
    List (Nat × BitVec n) :=
  if v = blank then rest else (x, v) :: rest

/-- The cells after `v` is written at `x`, in canonical form again. -/
def writeCell {n : Nat} (blank : BitVec n) : List (Nat × BitVec n) → Nat → BitVec n → List (Nat × BitVec n)
  | [], x, v => consCell blank x v []
  | (a, b) :: rest, x, v =>
    if x < a then consCell blank x v ((a, b) :: rest)
    else if x = a then consCell blank x v rest
    else (a, b) :: writeCell blank rest x v

/-- The canonical form: addresses strictly rising, and no cell that holds what an unlisted address reads as. -/
abbrev cellsWf {n : Nat} (blank : BitVec n) (cells : List (Nat × BitVec n)) : Prop :=
  cells.Pairwise (fun c c' => c.1 < c'.1) ∧ ∀ c ∈ cells, c.2 ≠ blank

/-- What a byte of RAM that nothing has written reads as. DESIGN CHOICE (log entry 5). -/
def blankByte : Byte := 0x00#8

/-- What a word of program memory that the loader has not placed reads as. PRESUMED (log entry 6). -/
def blankWord : Word := 0xFFFF#16

/-- The canonical form of the data space's RAM. -/
abbrev Memory.wf (cells : List Host.Cell) : Prop := cellsWf blankByte cells

/-- The canonical form of program memory. -/
abbrev Program.wf (cells : List ProgCell) : Prop := cellsWf blankWord cells

/-! ### Registers -/

/-- `R[i]` (R18). -/
def State.reg (s : State) (i : Reg) : Byte := s.regs[i.val]

/-- `R[i] <- v` (R18). No register is hardwired and none is read-only (R21). -/
def State.setReg (s : State) (i : Reg) (v : Byte) : State := { s with regs := s.regs.set i.val v }

/-- The register that holds the high byte of the pair whose low register is `d` (R23), for `d <= 30`. -/
def pairHigh (d : Reg) : Reg := d + 1

/-- `W[d]`: the pair `R[d+1]:R[d]`, high byte in the higher-numbered register (R18, R23). -/
def State.pair (s : State) (d : Reg) : Word := s.reg (pairHigh d) ++ s.reg d

/-- `W[d] <- v`: both registers of the pair at once (R18). -/
def State.setPair (s : State) (d : Reg) (v : Word) : State :=
  (s.setReg d (v.extractLsb' 0 8)).setReg (pairHigh d) (v.extractLsb' 8 8)

/-- `SREG` replaced by `f`. -/
def State.setSreg (s : State) (f : Sreg) : State := { s with sreg := f }

/-- `pc <- pc + n`, as natural numbers: the program counter does not wrap (R28, R29; log entry 28). -/
def State.advance (s : State) (n : Nat) : State := { s with pc := s.pc + n }

/-- The count of drawn bytes, the model's own, one more: the next `draw8()` is another free value (log entry 4). -/
def State.countDraw (s : State) : State := { s with draws := s.draws + 1 }

/-! ### The data space -/

/-- What a range's kind puts at the address `off` places into it. A register number above 31 names no register, so
nothing stands there. -/
def MapKind.target (k : MapKind) (off : Nat) : Target :=
  match k with
  | .regs first => if h : first + off < 32 then .reg ⟨first + off, h⟩ else .unmapped
  | .io first => .io (first + off)
  | .sram => .sram

/-- `DATA_MAP(a)` (R13): decided by the first range that holds the address. -/
def dataTarget : List MapRange → Addr → Target
  | [], _ => .unmapped
  | r :: rest, a =>
    if r.lo ≤ a.toNat ∧ a.toNat ≤ r.hi then MapKind.target r.kind (a.toNat - r.lo) else dataTarget rest a

/-- `DATA_MAP(a)` of the state's device. -/
def State.target (s : State) (a : Addr) : Target := dataTarget s.params.dataMap a

/-- `DS[a]`: the byte of RAM at address `a` (R41, R43). -/
def State.ram (s : State) (a : Addr) : Byte := readCell blankByte s.data a.toNat

/-- `MemRead(a, 1)` (R43), with the state after it: only a read of an I/O location changes it, by counting the byte it
draws. -/
def memRead (s : State) (a : Addr) : Except Refusal (Byte × State) :=
  match s.target a with
  | .sram => .ok (s.ram a, s)
  | .reg i => .ok (s.reg i, s)
  | .io _ => .ok (Config.drawByte s.draws, s.countDraw)
  | .unmapped => .error .unmappedDataAddress

/-- `MemWrite(a, 1, v)` (R58), defined for completeness as in the spec: no instruction calls it. -/
def memWrite (s : State) (a : Addr) (v : Byte) : Except Refusal State :=
  match s.target a with
  | .sram => .ok { s with data := writeCell blankByte s.data a.toNat v }
  | .reg i => .ok (s.setReg i v)
  | .io _ => .error .unmodelledStoreTarget
  | .unmapped => .error .unmodelledStoreTarget

/-! ### Program memory -/

/-- `PM[p]`: the word of program memory at word address `p` (R44). -/
def State.progWord (s : State) (p : Nat) : Word := readCell blankWord s.prog p

/-- `ProgRead(p)` (R44). -/
def progRead (s : State) (p : Nat) : Except Refusal Word :=
  if p < s.params.flashWords then .ok (s.progWord p) else .error .fetchOutsideProgramMemory

/-- The word `w` placed at word address `p`: what a loader does; no instruction writes program memory (R55). -/
def State.placeWord (s : State) (p : Nat) (w : Word) : State :=
  { s with prog := writeCell blankWord s.prog p w }

/-! ### What a device has -/

/-- `AVAILABLE(m)` (R11, D1): ADIW and LDD are missing on AVRrc; ADIW, LDD, LDS and MOVW are otherwise the device's own
fact; every other instruction is on every device. -/
def available (p : Params) : Mnemonic → Bool
  | .adiw => p.hasAdiw && p.core != .avrrc
  | .lddZ => p.hasLdd && p.core != .avrrc
  | .lds => p.hasLds
  | .movw => p.hasMovw
  | .add => true
  | .and => true
  | .mov => true
  | .andi => true
  | .ldi => true
  | .ldZ => true
  | .ldZInc => true
  | .ldZDec => true
  | .lsr => true

/-- The entry of `AVAILABLE` that decides about an LDD with displacement `q`: with `q = 0` it is the word of `LD Rd,Z`
"and does the same" (R104), so it is on every device that has `LD Rd,Z` (R11; log entry 8). -/
def lddRow (q : BitVec 6) : Mnemonic := if q = 0 then .ldZ else .lddZ

/-- The entry of `AVAILABLE` that decides about an instruction: its own row's, but for `LDD Rd,Z+0`. -/
def availabilityRow : Instr → Mnemonic
  | .movw _ _ => .movw
  | .add _ _ => .add
  | .and _ _ => .and
  | .mov _ _ => .mov
  | .andi _ _ => .andi
  | .lds _ _ => .lds
  | .adiw _ _ => .adiw
  | .ldi _ _ => .ldi
  | .ldZ _ => .ldZ
  | .ldZInc _ => .ldZInc
  | .ldZDec _ => .ldZDec
  | .lddZ _ q => lddRow q
  | .lsr _ => .lsr

/-- Whether a row is admitted: a row of the source always, a partly specified one by `ADMIT_PARTIAL` (R75, D18). -/
def admitted (p : Params) (m : Mnemonic) : Bool := m.fromSource || p.admitPartial

/-- The check (3) of R144: refuse an instruction the device lacks, otherwise go on. -/
def requireAvailable (m : Mnemonic) (s : State) (go : Result) : Result :=
  if available s.params m then go else .refused .instructionNotAvailable

/-! ### Fetching an instruction -/

/-- The words from `pc` on that an instruction may take: at most two, and none outside program memory (R44, R60). -/
def fetchWords (s : State) : List Word :=
  match progRead s s.pc with
  | .error _ => []
  | .ok w =>
    match progRead s (s.pc + 1) with
    | .error _ => [w]
    | .ok w2 => [w, w2]

/-- The instruction at `pc`, or the first of the checks (1) to (4) of R144 that fails; the check (3) of an instruction
whose words are all there is its meaning's. -/
def fetchInstr (s : State) : Except Refusal Instr :=
  match decode (fetchWords s) with
  | .error .noWord => .error .fetchOutsideProgramMemory
  | .error .noRow => .error .noRuleForWord
  | .error (.truncated m) =>
    if !admitted s.params m then .error .noRuleForWord
    else if !available s.params m then .error .instructionNotAvailable
    else .error .fetchOutsideProgramMemory
  | .ok (i, _) => if admitted s.params i.mnemonic then .ok i else .error .noRuleForWord

end Sys2Proof.Machine
end

