-- ==== Sys2Proof/Machine/Operands.lean ====
section
/-! DEFINITION. The operand forms: register, register pair, immediate, and the data addresses of the loads. -/
namespace Sys2Proof.Machine

/-- An instruction whose register operand no encoding can name has no rule (R79): refuse it, otherwise go on. -/
def requireOperand (ok : Bool) (go : Result) : Result :=
  if ok then go else .refused .operandOutOfRange

/-- `ZL`, the low register of the Z pointer `r31:r30` (R24). -/
def regZL : Reg := 30

/-- `ZH`, the high register of the Z pointer (R24). -/
def regZH : Reg := 31

/-- The Z pointer, `W[30]` (R24). -/
def State.z (s : State) : Addr := s.pair regZL

/-- `W[30] <- v` (R24). -/
def State.setZ (s : State) (v : Addr) : State := s.setPair regZL v

/-- Whether a register is one half of the Z pointer (R102, R103). -/
def isHalfOfZ (d : Reg) : Bool := d = regZL || d = regZH

/-- `zext_16(K)` of the six-bit constant of ADIW (R69). -/
def immediate6 (K : BitVec 6) : Word := K.setWidth 16

/-- The address of `LDD Rd,Z+q`, when `Z + q` stays in 16 bits (R104). -/
def zDisplaced (s : State) (q : BitVec 6) : Addr := s.z + q.setWidth 16

/-- Whether `Z + q`, as natural numbers, leaves 16 bits (R104). -/
def zDisplacementLeaves (s : State) (q : BitVec 6) : Bool := 0xFFFF < s.z.toNat + q.toNat

/-- Read the byte at a data address, then finish the instruction with it; a refused read refuses the step. Every load
goes through here. -/
def withByteAt (a : Addr) (s : State) (finish : Byte → State → State) : Result :=
  match memRead s a with
  | .error r => .refused r
  | .ok (v, t) => .next (finish v t)

end Sys2Proof.Machine
end

