-- ==== Sys2Proof/Machine/Arith.lean ====
section
/-! DEFINITION. ADD and ADIW (spec/40_add_adiw.md). -/
namespace Sys2Proof.Machine

/-- ADD Rd,Rr (R80): both operands are before values; the incoming `C` is no input. -/
def execAdd (d r : Reg) (s : State) : Result :=
  let a := s.reg d
  let b := s.reg r
  let res := a + b
  .next (((s.setReg d res).setSreg (addFlags a b res s.sreg)).advance 1)

/-- ADIW Rd+1:Rd,K (R84): both registers of the pair are written in the same step. -/
def execAdiw (d : Reg) (K : BitVec 6) (s : State) : Result :=
  requireAvailable .adiw s <| requireOperand d.isUpperPair <|
    let x := s.pair d
    let res := x + immediate6 K
    .next (((s.setPair d res).setSreg (adiwFlags x res s.sreg)).advance 1)

end Sys2Proof.Machine
end

