-- ==== Sys2Proof/Machine/Load.lean ====
section
/-! DEFINITION. LDI, LDS and the loads through Z (spec/42_ld_ldi_lds.md). The loads through Z are partly specified
(R7): their encodings, operand ranges and untouched flags are the spec's general knowledge (log entry 12). -/
namespace Sys2Proof.Machine

/-- LDI Rd,K (R106). -/
def execLdi (d : Reg) (K : BitVec 8) (s : State) : Result :=
  requireOperand d.isUpper <| .next ((s.setReg d K).advance 1)

/-- LDS Rd,k (R108): the program counter moves past both words. -/
def execLds (d : Reg) (k : Addr) (s : State) : Result :=
  requireAvailable .lds s <| withByteAt k s fun v t => (t.setReg d v).advance 2

/-- LD Rd,Z (R101): the address is formed from the before value of Z. -/
def execLdZ (d : Reg) (s : State) : Result :=
  withByteAt s.z s fun v t => (t.setReg d v).advance 1

/-- LD Rd,Z+ (R102): the byte at the old Z, then Z one more. A destination inside Z, and Z at the top, are refused
(R105; log entry 18). -/
def execLdZInc (d : Reg) (s : State) : Result :=
  if isHalfOfZ d then .refused .ldPostincIntoZ
  else if s.z = 0xFFFF#16 then .refused .zPointerOverflow
  else withByteAt s.z s fun v t => ((t.setReg d v).setZ (s.z + 1)).advance 1

/-- LD Rd,-Z (R103): Z one less, and the byte at the new Z. `MemRead` is in the state before the step (R43; log entry
30). A
destination inside Z, and Z at zero, are refused (R105). -/
def execLdZDec (d : Reg) (s : State) : Result :=
  if isHalfOfZ d then .refused .ldPredecIntoZ
  else if s.z = 0x0000#16 then .refused .zPointerUnderflow
  else withByteAt (s.z - 1) s fun v t => ((t.setZ (s.z - 1)).setReg d v).advance 1

/-- LDD Rd,Z+q (R104): Z is not changed; an address above 0xFFFF is refused (R105). With `q = 0` it is `LD Rd,Z`, and on
every device that has that (log entry 8). -/
def execLddZ (d : Reg) (q : BitVec 6) (s : State) : Result :=
  requireAvailable (lddRow q) s <|
    if zDisplacementLeaves s q then .refused .zDisplacementOverflow
    else withByteAt (zDisplaced s q) s fun v t => (t.setReg d v).advance 1

end Sys2Proof.Machine
end

