-- ==== Sys2Proof/Machine/Logic.lean ====
section
/-! DEFINITION. AND and ANDI (spec/41_and_andi.md). -/
namespace Sys2Proof.Machine

/-- The bitwise AND of register `d` with `x`, with its flags: what AND and ANDI share (R90, R93). -/
def andInto (d : Reg) (x : Byte) (s : State) : State :=
  let res := s.reg d &&& x
  ((s.setReg d res).setSreg (logicFlags res s.sreg)).advance 1

/-- AND Rd,Rr (R90). -/
def execAnd (d r : Reg) (s : State) : Result := .next (andInto d (s.reg r) s)

/-- ANDI Rd,K (R93). -/
def execAndi (d : Reg) (K : BitVec 8) (s : State) : Result :=
  requireOperand d.isUpper <| .next (andInto d K s)

end Sys2Proof.Machine
end

