-- ==== Sys2Proof/Machine/Move.lean ====
section
/-! DEFINITION. MOV and MOVW (spec/44_mov_movw.md). -/
namespace Sys2Proof.Machine

/-- MOV Rd,Rr (R120). -/
def execMov (d r : Reg) (s : State) : Result := .next ((s.setReg d (s.reg r)).advance 1)

/-- MOVW Rd+1:Rd,Rr+1:Rr (R122): both bytes are copied from before values. -/
def execMovw (d r : Reg) (s : State) : Result :=
  requireAvailable .movw s <| requireOperand (d.isEven && r.isEven) <|
    .next ((s.setPair d (s.pair r)).advance 1)

end Sys2Proof.Machine
end

