-- ==== Sys2Proof/Machine/Shift.lean ====
section
/-! DEFINITION. LSR (spec/43_lsr.md), partly specified (R7): its encoding, operand range and operation line are the
spec's reconstruction (log entry 12). -/
namespace Sys2Proof.Machine

/-- LSR Rd (R115): one place to the right, zero into bit 7, the old bit 0 into `C`. -/
def execLsr (d : Reg) (s : State) : Result :=
  let a := s.reg d
  let res := a >>> 1
  .next (((s.setReg d res).setSreg (lsrFlags a res s.sreg)).advance 1)

end Sys2Proof.Machine
end

