-- ==== Sys2Proof/Machine/Dispatch.lean ====
section
/-! DEFINITION. The meaning of each instruction, one arm per row of the opcode table, in the table's order. -/
namespace Sys2Proof.Machine

def exec (i : Instr) (s : State) : Host.Outcome State Fault Refusal :=
  match i with
  | .movw d r => Sys2Proof.Machine.execMovw d r s
  | .add d r => Sys2Proof.Machine.execAdd d r s
  | .and d r => Sys2Proof.Machine.execAnd d r s
  | .mov d r => Sys2Proof.Machine.execMov d r s
  | .andi d K => Sys2Proof.Machine.execAndi d K s
  | .lds d k => Sys2Proof.Machine.execLds d k s
  | .adiw d K => Sys2Proof.Machine.execAdiw d K s
  | .ldi d K => Sys2Proof.Machine.execLdi d K s
  | .ldZ d => Sys2Proof.Machine.execLdZ d s
  | .ldZInc d => Sys2Proof.Machine.execLdZInc d s
  | .ldZDec d => Sys2Proof.Machine.execLdZDec d s
  | .lddZ d q => Sys2Proof.Machine.execLddZ d q s
  | .lsr d => Sys2Proof.Machine.execLsr d s

end Sys2Proof.Machine
end

