-- ==== Sys2Proof/Machine/Step.lean ====
section
/-! DEFINITION. One step: fetch and decode the instruction at `pc`, and give it its meaning (R19, R144). -/
namespace Sys2Proof.Machine

/-- One instruction is one step (R19). A refused step changes no state (R144). -/
def step (s : State) : Host.Outcome State Fault Refusal :=
  match fetchInstr s with
  | .error r => .refused r
  | .ok i => exec i s

/-- `s` with the instruction whose bits are the low `nbits` bits of `w`, the bits above them zero, placed at `pc`: both
words the longest instruction may take. It changes program memory only, so it presumes what holds at reset, that
`pc + 1` is below `FLASH_WORDS` (log entry 21). -/
def State.withFetchWord (s : State) (nbits w : Nat) : State :=
  (s.placeWord s.pc (wordOfBits nbits w 0)).placeWord (s.pc + 1) (wordOfBits nbits w 1)

end Sys2Proof.Machine
end

