-- ==== Sys2Proof/Safety.lean ====
section
/-! DEFINITION. Start, end and invariant of a run, and the tables of what each instruction may write, in the terms the
statements use. -/
namespace Sys2Proof.Machine

/-- A state in which a run can start: `pc = START_PC`, with parameters as R12 and R161 ask. Every other piece of state
is free (R160). -/
abbrev State.IsStart (s : State) : Prop := s.pc = s.params.startPc ∧ s.params.Wf

/-- A final state: `pc = END_PC` (R163). -/
abbrev State.IsFinal (s : State) : Prop := s.pc = s.params.endPc

/-- The invariant of the machine: both memories in canonical form and inside their address spaces (R42, R44), the
parameters as R12 and R161 ask, and `pc` at most one past the last word of program memory (R29). -/
abbrev State.Inv (s : State) : Prop :=
  Memory.wf s.data ∧ (∀ c ∈ s.data, c.1 < 65536) ∧
  Program.wf s.prog ∧ (∀ c ∈ s.prog, c.1 < s.params.flashWords) ∧
  s.params.Wf ∧ s.pc ≤ s.params.flashWords

/-- How a run of a bounded number of steps ends (R163): in a final state, in a refusal ("A refused state is never
final"), in a fault (there is none), or not yet. -/
inductive RunEnd where
  | final (s : State)
  | refused (r : Refusal)
  | faulted (r : Fault)
  | running (s : State)
  deriving DecidableEq, Repr

/-- A run of at most `fuel` steps that ends when `pc = END_PC` first holds; the instruction at `END_PC` is not executed
(R163). `step` itself knows no `END_PC`: a real core goes on fetching there (log entry 20). -/
def runToEnd : Nat → State → RunEnd
  | 0, s => if s.IsFinal then .final s else .running s
  | fuel + 1, s =>
    if s.IsFinal then .final s
    else
      match step s with
      | .next t => runToEnd fuel t
      | .fault r => .faulted r
      | .refused r => .refused r

/-- `n` steps one after another, ending at the first refusal. -/
def runSteps : Nat → State → Result
  | 0, s => .next s
  | n + 1, s =>
    match step s with
    | .next t => runSteps n t
    | .fault r => .fault r
    | .refused r => .refused r

/-- The instructions of a list one after another, without fetching them: what a straight-line fragment does (R138). -/
def execSeq : List Instr → State → RunEnd
  | [], s => .final s
  | i :: rest, s =>
    match exec i s with
    | .next t => execSeq rest t
    | .fault r => .faulted r
    | .refused r => .refused r

/-- Both memories read as before, address by address, and the device is the same. -/
abbrev State.MemorySame (s t : State) : Prop :=
  (∀ a, t.ram a = s.ram a) ∧ (∀ p, t.progWord p = s.progWord p) ∧ t.params = s.params

/-- `v` is the byte `MemRead(a, 1)` gives in state `s` (R43): the byte of RAM, the register's before value, or, from an
I/O location, the free value of this read. -/
abbrev State.Loads (s : State) (a : Addr) (v : Byte) : Prop :=
  (s.target a = .sram → v = s.ram a) ∧
  (∀ i, s.target a = .reg i → v = s.reg i) ∧
  (∀ j, s.target a = .io j → v = Config.drawByte s.draws)

/-- The refusal an instruction's own operands call for, if any: check (5) of R144, from R102 to R105. -/
def operandRefusal (s : State) : Instr → Option Refusal
  | .ldZInc d => if d = 30 ∨ d = 31 then some .ldPostincIntoZ else if s.z = 0xFFFF#16 then some .zPointerOverflow else none
  | .ldZDec d => if d = 30 ∨ d = 31 then some .ldPredecIntoZ else if s.z = 0x0000#16 then some .zPointerUnderflow else none
  | .lddZ _ q => if 0xFFFF < s.z.toNat + q.toNat then some .zDisplacementOverflow else none
  | .ldZ _ => none
  | .lds _ _ => none
  | .add _ _ => none
  | .adiw _ _ => none
  | .and _ _ => none
  | .andi _ _ => none
  | .ldi _ _ => none
  | .mov _ _ => none
  | .movw _ _ => none
  | .lsr _ => none

/-- The eight flags of `SREG` by name (R31). -/
inductive Flag where
  | I | T | H | S | V | N | Z | C
  deriving DecidableEq, Repr

/-- `SREG.X` (R18). -/
def Sreg.get (f : Sreg) : Flag → Bool
  | .I => f.I
  | .T => f.T
  | .H => f.H
  | .S => f.S
  | .V => f.V
  | .N => f.N
  | .Z => f.Z
  | .C => f.C

/-- The flags each instruction writes: the table of R33, row by row. -/
def flagsWritten : Mnemonic → List Flag
  | .add => [.H, .S, .V, .N, .Z, .C]
  | .adiw => [.S, .V, .N, .Z, .C]
  | .and => [.S, .V, .N, .Z]
  | .andi => [.S, .V, .N, .Z]
  | .lsr => [.S, .V, .N, .Z, .C]
  | .ldi => []
  | .lds => []
  | .mov => []
  | .movw => []
  | .ldZ => []
  | .ldZInc => []
  | .ldZDec => []
  | .lddZ => []

/-- The registers each instruction writes: the last column of the table of R25. -/
def regsWritten : Instr → List Reg
  | .add d _ => [d]
  | .adiw d _ => [d, pairHigh d]
  | .and d _ => [d]
  | .andi d _ => [d]
  | .ldi d _ => [d]
  | .lds d _ => [d]
  | .mov d _ => [d]
  | .movw d _ => [d, pairHigh d]
  | .lsr d => [d]
  | .ldZ d => [d]
  | .ldZInc d => [d, regZL, regZH]
  | .ldZDec d => [d, regZL, regZH]
  | .lddZ d _ => [d]

/-- The registers each instruction reads, its data address apart: the middle column of the table of R25, without the
register a device may map at the address of a load. -/
def regsRead : Instr → List Reg
  | .add d r => [d, r]
  | .adiw d _ => [d, pairHigh d]
  | .and d r => [d, r]
  | .andi d _ => [d]
  | .ldi _ _ => []
  | .lds _ _ => []
  | .mov _ r => [r]
  | .movw _ r => [r, pairHigh r]
  | .lsr d => [d]
  | .ldZ _ => [regZL, regZH]
  | .ldZInc _ => [regZL, regZH]
  | .ldZDec _ => [regZL, regZH]
  | .lddZ _ _ => [regZL, regZH]

/-- The data address an instruction loads from, if it is a load (R108, R101 to R104). -/
def loadAddress (s : State) : Instr → Option Addr
  | .lds _ k => some k
  | .ldZ _ => some s.z
  | .ldZInc _ => some s.z
  | .ldZDec _ => some (s.z - 1)
  | .lddZ _ q => some (zDisplaced s q)
  | .add _ _ => none
  | .adiw _ _ => none
  | .and _ _ => none
  | .andi _ _ => none
  | .ldi _ _ => none
  | .mov _ _ => none
  | .movw _ _ => none
  | .lsr _ => none

end Sys2Proof.Machine
end

