-- ==== Sys2Proof/Certificates/Slice0/Obligations.lean ====
section
/-! DEFINITION. The statements about the machine, from the spec's numbered rules. Each docstring names its rules. -/
open Sys2Proof Sys2Proof.Machine

/-! ### Encoding -/

/-- R63 to R73: no operand bit of an encoding is lost. Decoding the words of a well-formed instruction, whatever words
follow them, gives the instruction and the words after it; the words of `LD Rd,Z`, which are those of `LDD Rd,Z+0`,
are decoded once, as the latter (R73). -/
def Obligations.DecodeOfEncodeIsTheInstruction : Prop :=
  (∀ (i : Instr) (rest : List Word), i.wf = true → (∀ d, i ≠ .ldZ d) → decode (encode i ++ rest) = .ok (i, rest)) ∧
  ∀ (d : Reg) (rest : List Word), decode (encode (.ldZ d) ++ rest) = .ok (.lddZ d 0, rest)

/-- R61, R63 to R73: no bit of a word is ignored. The words an instruction is decoded from are exactly its encoding, so
no two words mean the same instruction. -/
def Obligations.EncodeOfDecodeIsTheWords : Prop :=
  ∀ (ws rest : List Word) (i : Instr), decode ws = .ok (i, rest) → encode i ++ rest = ws

/-- R65, R66, R67, R73, R76, R79: what an assembler must reject cannot be decoded either, and no word is decoded as
`LD Rd,Z`. -/
def Obligations.DecodedInstructionsAreWellFormed : Prop :=
  ∀ (ws rest : List Word) (i : Instr), decode ws = .ok (i, rest) →
    i.wf = true ∧ ∀ d, i ≠ .ldZ d

/-- 95_test_vectors.md: words it lists, of every row of the opcode map, and what they are. It prints 0x8010 as `ld
r1,Z`, which R73 decodes as LDD with `q = 0`. The encodings of the last five rows are general knowledge by the spec's
own mark (log entry 12). -/
def Obligations.DecodeOfListedWords : Prop :=
  decode [0x0180#16] = .ok (.movw 16 0, []) ∧ decode [0x0E0F#16] = .ok (.add 0 31, []) ∧
  decode [0x2220#16] = .ok (.and 2 16, []) ∧ decode [0x7F00#16] = .ok (.andi 16 0xF0, []) ∧
  decode [0x9020#16, 0xFF00#16] = .ok (.lds 2 0xFF00, []) ∧ decode [0x96AF#16] = .ok (.adiw 28 47, []) ∧
  decode [0xE6E0#16] = .ok (.ldi 30 0x60, []) ∧ decode [0xAC47#16] = .ok (.lddZ 4 63, []) ∧
  decode [0x2D00#16] = .ok (.mov 16 0, []) ∧ decode [0x8010#16] = .ok (.lddZ 1 0, []) ∧
  decode [0x9001#16] = .ok (.ldZInc 0, []) ∧ decode [0x8042#16] = .ok (.lddZ 4 2, []) ∧ decode [0x9032#16] = .ok (.ldZDec 3, []) ∧
  decode [0x95F6#16] = .ok (.lsr 31, []) ∧ decode [0x8048#16] = .error .noRow

/-- R73, which the spec derives from R72: a first word is in two rows only when it is a word of `LD Rd,Z`, which is
also one of `LDD Rd,Z+q`; that word is decoded once, as LDD with `q = 0`. -/
def Obligations.RowsOverlapOnlyInLdZ : Prop :=
  (∀ (w : Word) (r r' : OpcodeRow), r ∈ opcodeMap → r' ∈ opcodeMap →
    r.matchesWord w = true → r'.matchesWord w = true →
    r = r' ∨ (r.name = .ldZ ∧ r'.name = .lddZ) ∨ (r.name = .lddZ ∧ r'.name = .ldZ)) ∧
  (∀ (w : Word) (rest : List Word), w &&& 0xFE0F#16 = 0x8000#16 →
    w &&& 0xD208#16 = 0x8000#16 ∧ decode (w :: rest) = .ok (.lddZ (reg5 (w.extractLsb' 4 5)) 0, rest))

/-- R62, which the spec derives from R60 and R72: the first word decides the length. A first word in 0x9000 under
0xFE0F takes the next word as its address, whatever that word looks like; every other one leaves the next word alone.
-/
def Obligations.FirstWordDecidesLength : Prop :=
  ∀ (w w2 : Word) (rest rest' : List Word) (i : Instr), decode (w :: w2 :: rest) = .ok (i, rest') →
    (w &&& 0xFE0F#16 = 0x9000#16 → (∃ d, i = .lds d w2) ∧ rest' = rest) ∧
    (w &&& 0xFE0F#16 ≠ 0x9000#16 → (∀ d k, i ≠ .lds d k) ∧ rest' = w2 :: rest)

/-! ### Fetch, checks and refusals -/

/-- R19, R44: a step runs the decoded instruction. When the words at `pc` decode to an instruction that lies inside
program memory and is admitted, the step is that instruction's meaning, and nothing else happens around it. -/
def Obligations.StepRunsTheDecodedInstruction : Prop :=
  ∀ (s : State) (i : Instr) (rest : List Word),
    decode [s.progWord s.pc, s.progWord (s.pc + 1)] = .ok (i, rest) →
    s.pc + i.words ≤ s.params.flashWords → admitted s.params i.mnemonic = true → step s = exec i s

/-- R44: a program word below `FLASH_WORDS` is read; above it the read is refused, and so is the fetch of an
instruction there, and the fetch of an LDS whose second word is there. An LDS takes its opcode word from `PM[pc]` and
its address from `PM[pc+1]`. The order of the two words is what R44 marks as "this spec's reading" (D6; log entry 14),
and the refusal past `FLASH_WORDS` is the spec's decision D2 (log entry 28). -/
def Obligations.ProgramReadsStopAtFlashWords : Prop :=
  (∀ (s : State) (p : Nat), p < s.params.flashWords → progRead s p = .ok (s.progWord p)) ∧
  (∀ (s : State) (p : Nat), s.params.flashWords ≤ p → progRead s p = .error .fetchOutsideProgramMemory) ∧
  (∀ s : State, s.params.flashWords ≤ s.pc → step s = .refused .fetchOutsideProgramMemory) ∧
  (∀ s : State, s.pc + 1 = s.params.flashWords → s.progWord s.pc &&& 0xFE0F#16 = 0x9000#16 →
    available s.params .lds = true → step s = .refused .fetchOutsideProgramMemory) ∧
  (∀ s : State, s.pc + 1 < s.params.flashWords → s.progWord s.pc &&& 0xFE0F#16 = 0x9000#16 →
    step s = exec (.lds (reg5 ((s.progWord s.pc).extractLsb' 4 5)) (s.progWord (s.pc + 1))) s)

/-- R75: a first word that matches no admitted row is refused, and so is a word of an instruction the device lacks. A
word `LD Rd,Z` and LDD share is the spec's `LD Rd,Z`, which every device has (R11; log entry 8), so it is left out
here. -/
def Obligations.UnmatchedAndUnavailableWordsAreRefused : Prop :=
  (∀ s : State, s.pc < s.params.flashWords →
    (∀ row ∈ opcodeMap, s.progWord s.pc &&& row.mask = row.pattern → admitted s.params row.name = false) →
    step s = .refused .noRuleForWord) ∧
  (∀ (s : State) (row : OpcodeRow), s.pc < s.params.flashWords → row ∈ opcodeMap →
    s.progWord s.pc &&& row.mask = row.pattern →
    (row.name = .lddZ → s.progWord s.pc &&& 0xFE0F#16 ≠ 0x8000#16) →
    admitted s.params row.name = true → available s.params row.name = false →
    step s = .refused .instructionNotAvailable)

/-- R144: the checks of a step, in the order of the spec's own decision D7: (1) `pc` in program memory, (2) an
admitted row, (3) available, (4) the second word in program memory, then the instruction, whose own checks are (5) its
operands and (6) a mapped data address. The word `LD Rd,Z` and LDD share has LDD's row (R73) and the availability of
`LD Rd,Z` (log entry 8). That an instruction that passes every check completes is not in R144: it is what the
instructions' rules give. -/
def Obligations.ChecksAreMadeInOrder : Prop :=
  (∀ s : State,
    step s =
      if s.params.flashWords ≤ s.pc then .refused .fetchOutsideProgramMemory
      else
        match rowOf (s.progWord s.pc) with
        | none => .refused .noRuleForWord
        | some row =>
          if admitted s.params row.name = false then .refused .noRuleForWord
          else if available s.params (availabilityRow (operandsOf row.name (s.progWord s.pc) 0)) = false then
            .refused .instructionNotAvailable
          else if row.words = 2 ∧ s.params.flashWords ≤ s.pc + 1 then .refused .fetchOutsideProgramMemory
          else exec (operandsOf row.name (s.progWord s.pc) (s.progWord (s.pc + 1))) s) ∧
  (∀ (i : Instr) (s : State), i.wf = true → available s.params (availabilityRow i) = true →
    match operandRefusal s i with
    | some r => exec i s = .refused r
    | none =>
      ((∃ a, loadAddress s i = some a ∧ s.target a = .unmapped) → exec i s = .refused .unmappedDataAddress) ∧
      ((∀ a, loadAddress s i = some a → s.target a ≠ .unmapped) → ∃ t, exec i s = .next t))

/-- R141: every refusal of a step is one of the closed list that an instruction can reach. In particular no step answers
the model's own `operandOutOfRange`, and none a refused store. -/
def Obligations.StepRefusalsAreTheListedOnes : Prop :=
  ∀ (s : State) (r : Refusal), step s = .refused r →
    r ∈ [Refusal.fetchOutsideProgramMemory, .noRuleForWord, .instructionNotAvailable, .unmappedDataAddress,
      .ldPostincIntoZ, .ldPredecIntoZ, .zPointerOverflow, .zPointerUnderflow, .zDisplacementOverflow]

/-- R140, R145: no step takes an exception. A step ends in one of two ways only: it completes, with `pc` one or two words
on (so at no handler's address), `I` and `T` as they were and nothing saved in either memory; or it is refused, for a
reason of R141's list. -/
def Obligations.NoStepTakesAnException : Prop :=
  ∀ s : State,
    (∃ t, step s = .next t ∧ (t.pc = s.pc + 1 ∨ t.pc = s.pc + 2) ∧ t.sreg.I = s.sreg.I ∧ t.sreg.T = s.sreg.T ∧
      t.data = s.data ∧ t.prog = s.prog) ∨
    (∃ r ∈ [Refusal.fetchOutsideProgramMemory, .noRuleForWord, .instructionNotAvailable, .unmappedDataAddress,
      .ldPostincIntoZ, .ldPredecIntoZ, .zPointerOverflow, .zPointerUnderflow, .zDisplacementOverflow],
      step s = .refused r)

/-- R11: the entries of `AVAILABLE` the spec fixes, those it leaves to the device, and what an unavailable instruction
does. The source fixes the two false entries only; the true entries and the refusal are the spec's decision D1, and
the open entries are log entry 26. An LDD with `q = 0` is `LD Rd,Z` (R104; log entry 8). -/
def Obligations.AvailabilityFixedBySpec : Prop :=
  (∀ p : Params, p.core = .avrrc → available p .adiw = false ∧ available p .lddZ = false) ∧
  (∀ (p : Params) (m : Mnemonic), m ∈ [Mnemonic.add, .and, .andi, .ldi, .mov, .lsr, .ldZ, .ldZInc, .ldZDec] →
    available p m = true) ∧
  (∀ (m : Mnemonic) (b : Bool), m ∈ [Mnemonic.adiw, .lds, .movw] →
    ∃ p : Params, p.core ≠ .avrrc ∧ available p m = b) ∧
  (∀ (i : Instr) (s : State), available s.params (availabilityRow i) = false →
    exec i s = .refused .instructionNotAvailable) ∧
  (∀ i : Instr, (∀ d, i ≠ .lddZ d 0) → availabilityRow i = i.mnemonic)

/-! ### ADD and ADIW -/

/-- R80: ADD, its encoding, result and flags (the Boolean formulas), and what it leaves alone. -/
def Obligations.AddResultAndFlags : Prop :=
  (∀ (w : Word) (rest : List Word), w &&& 0xFC00#16 = 0x0C00#16 →
    decode (w :: rest) =
      .ok (.add (reg5 (w.extractLsb' 4 5)) (reg5 (w.extractLsb' 9 1 ++ w.extractLsb' 0 4)), rest)) ∧
  ∀ (d r : Reg) (s : State), ∃ t, exec (.add d r) s = .next t ∧
    (∀ a b res : Byte, a = s.reg d → b = s.reg r → res = t.reg d →
      res.toNat = (a.toNat + b.toNat) % 256 ∧
      t.sreg.H = ((a.getLsbD 3 && b.getLsbD 3) || (b.getLsbD 3 && !res.getLsbD 3) || (!res.getLsbD 3 && a.getLsbD 3)) ∧
      t.sreg.V = ((a.getLsbD 7 && b.getLsbD 7 && !res.getLsbD 7) || (!a.getLsbD 7 && !b.getLsbD 7 && res.getLsbD 7)) ∧
      t.sreg.N = res.getLsbD 7 ∧
      t.sreg.Z = (!res.getLsbD 7 && !res.getLsbD 6 && !res.getLsbD 5 && !res.getLsbD 4 &&
        !res.getLsbD 3 && !res.getLsbD 2 && !res.getLsbD 1 && !res.getLsbD 0) ∧
      t.sreg.C = ((a.getLsbD 7 && b.getLsbD 7) || (b.getLsbD 7 && !res.getLsbD 7) || (!res.getLsbD 7 && a.getLsbD 7))) ∧
    t.sreg.S = (t.sreg.N ^^ t.sreg.V) ∧ t.sreg.I = s.sreg.I ∧ t.sreg.T = s.sreg.T ∧
    t.pc = s.pc + 1 ∧ (∀ j, j ≠ d → t.reg j = s.reg j) ∧ s.MemorySame t ∧ t.draws = s.draws

/-- R81: the arithmetic reading of the ADD flags, which the spec derives from the rule before it. -/
def Obligations.AddFlagsArithmetically : Prop :=
  ∀ (d r : Reg) (s : State), ∃ t, exec (.add d r) s = .next t ∧
    (t.sreg.C = true ↔ 256 ≤ (s.reg d).toNat + (s.reg r).toNat) ∧
    (t.sreg.H = true ↔ 16 ≤ (s.reg d).toNat % 16 + (s.reg r).toNat % 16) ∧
    (t.sreg.V = true ↔ (s.reg d).toInt + (s.reg r).toInt < -128 ∨ 127 < (s.reg d).toInt + (s.reg r).toInt) ∧
    (t.sreg.N = true ↔ 128 ≤ (t.reg d).toNat) ∧
    (t.sreg.Z = true ↔ (t.reg d).toNat = 0) ∧
    (t.sreg.S = true ↔ (s.reg d).toInt + (s.reg r).toInt < 0)

/-- R82: ADD with `d = r` doubles the register; its word has the same register in both fields. -/
def Obligations.AddOfARegisterToItself : Prop :=
  (∀ d : Reg, ∃ w : Word, encode (.add d d) = [w] ∧ w &&& 0xFC00#16 = 0x0C00#16 ∧
    w.extractLsb' 4 5 = w.extractLsb' 9 1 ++ w.extractLsb' 0 4) ∧
  ∀ (d : Reg) (s : State), ∃ t, exec (.add d d) s = .next t ∧
    (t.reg d).toNat = 2 * (s.reg d).toNat % 256 ∧
    t.sreg.C = (s.reg d).getLsbD 7 ∧ t.sreg.H = (s.reg d).getLsbD 3 ∧ t.sreg.N = (s.reg d).getLsbD 6 ∧
    t.sreg.V = ((s.reg d).getLsbD 7 ^^ (s.reg d).getLsbD 6) ∧
    (t.sreg.Z = true ↔ s.reg d = 0x00#8 ∨ s.reg d = 0x80#8)

/-- R84: ADIW, its encoding, result and flags, and what it leaves alone, on a device that has it. `V` and `Z` are the
formulas the spec corrects (90_conflicts.md C1, C2; decision D21; log entry 25). -/
def Obligations.AdiwResultAndFlags : Prop :=
  (∀ (w : Word) (rest : List Word), w &&& 0xFF00#16 = 0x9600#16 →
    ∃ d : Reg, d.val = 24 + 2 * (w.extractLsb' 4 2).toNat ∧
      decode (w :: rest) = .ok (.adiw d (w.extractLsb' 6 2 ++ w.extractLsb' 0 4), rest)) ∧
  ∀ (d h : Reg) (K : BitVec 6) (s : State), d ∈ [(24 : Reg), 26, 28, 30] → h.val = d.val + 1 →
    available s.params .adiw = true →
    ∃ t, exec (.adiw d K) s = .next t ∧
      (∀ x res : Word, x = s.reg h ++ s.reg d → res = t.reg h ++ t.reg d →
        res.toNat = (x.toNat + K.toNat) % 65536 ∧
        t.sreg.V = (!x.getLsbD 15 && res.getLsbD 15) ∧ t.sreg.N = res.getLsbD 15 ∧
        (t.sreg.Z = true ↔ res = 0x0000#16) ∧ t.sreg.C = (!res.getLsbD 15 && x.getLsbD 15)) ∧
      t.sreg.S = (t.sreg.N ^^ t.sreg.V) ∧ t.sreg.I = s.sreg.I ∧ t.sreg.T = s.sreg.T ∧ t.sreg.H = s.sreg.H ∧
      t.pc = s.pc + 1 ∧ (∀ j, j ≠ d → j ≠ h → t.reg j = s.reg j) ∧ s.MemorySame t ∧ t.draws = s.draws

/-- R85: the arithmetic reading of the ADIW flags, which the spec derives from R84 with its corrected `V` and `Z` (log
entry 25). -/
def Obligations.AdiwFlagsArithmetically : Prop :=
  ∀ (d : Reg) (K : BitVec 6) (s : State), d ∈ [(24 : Reg), 26, 28, 30] → available s.params .adiw = true →
    ∃ t, exec (.adiw d K) s = .next t ∧
      (t.sreg.C = true ↔ 65536 ≤ (s.pair d).toNat + K.toNat) ∧
      (t.sreg.V = true ↔ 32767 < (s.pair d).toInt + K.toNat) ∧
      (t.sreg.N = true ↔ 32768 ≤ (t.pair d).toNat) ∧
      (t.sreg.Z = true ↔ (t.pair d).toNat = 0) ∧
      (t.sreg.S = true ↔ (s.pair d).toInt + K.toNat < 0)

/-- R86: ADIW is missing on AVRrc, whatever else the device says, and its words are refused there and wherever it is
missing. The refusal is the spec's decision D1, since "the source does not say what such a device does with the word";
the open entry is log entry 26. -/
def Obligations.AdiwIsRefusedOnAvrrc : Prop :=
  (∀ s : State, s.params.core = .avrrc → s.pc < s.params.flashWords → s.progWord s.pc &&& 0xFF00#16 = 0x9600#16 →
    step s = .refused .instructionNotAvailable) ∧
  (∀ s : State, available s.params .adiw = false → s.pc < s.params.flashWords →
    s.progWord s.pc &&& 0xFF00#16 = 0x9600#16 → step s = .refused .instructionNotAvailable)

/-! ### AND and ANDI -/

/-- R90: AND, its encoding, result and flags, and what it leaves alone. -/
def Obligations.AndResultAndFlags : Prop :=
  (∀ (w : Word) (rest : List Word), w &&& 0xFC00#16 = 0x2000#16 →
    decode (w :: rest) =
      .ok (.and (reg5 (w.extractLsb' 4 5)) (reg5 (w.extractLsb' 9 1 ++ w.extractLsb' 0 4)), rest)) ∧
  ∀ (d r : Reg) (s : State), ∃ t, exec (.and d r) s = .next t ∧
    t.reg d = s.reg d &&& s.reg r ∧
    t.sreg.V = false ∧ t.sreg.N = (t.reg d).getLsbD 7 ∧ (t.sreg.Z = true ↔ t.reg d = 0x00#8) ∧
    t.sreg.S = (t.sreg.N ^^ t.sreg.V) ∧ t.sreg.I = s.sreg.I ∧ t.sreg.T = s.sreg.T ∧ t.sreg.H = s.sreg.H ∧
    t.sreg.C = s.sreg.C ∧
    t.pc = s.pc + 1 ∧ (∀ j, j ≠ d → t.reg j = s.reg j) ∧ s.MemorySame t ∧ t.draws = s.draws

/-- R93: ANDI, its encoding, result and flags, and what it leaves alone. -/
def Obligations.AndiResultAndFlags : Prop :=
  (∀ (w : Word) (rest : List Word), w &&& 0xF000#16 = 0x7000#16 →
    ∃ d : Reg, d.val = 16 + (w.extractLsb' 4 4).toNat ∧
      decode (w :: rest) = .ok (.andi d (w.extractLsb' 8 4 ++ w.extractLsb' 0 4), rest)) ∧
  ∀ (d : Reg) (K : BitVec 8) (s : State), 16 ≤ d.val → ∃ t, exec (.andi d K) s = .next t ∧
    t.reg d = s.reg d &&& K ∧
    t.sreg.V = false ∧ t.sreg.N = (t.reg d).getLsbD 7 ∧ (t.sreg.Z = true ↔ t.reg d = 0x00#8) ∧
    t.sreg.S = (t.sreg.N ^^ t.sreg.V) ∧ t.sreg.I = s.sreg.I ∧ t.sreg.T = s.sreg.T ∧ t.sreg.H = s.sreg.H ∧
    t.sreg.C = s.sreg.C ∧
    t.pc = s.pc + 1 ∧ (∀ j, j ≠ d → t.reg j = s.reg j) ∧ s.MemorySame t ∧ t.draws = s.draws

/-! ### LSR, MOV, MOVW, LDI -/

/-- R115: LSR, its encoding, result and flags, and what it leaves alone. The encoding and the operand range are what
the spec marks "from general knowledge, not in source", and the operation line is its reconstruction (log entry 12).
-/
def Obligations.LsrResultAndFlags : Prop :=
  (∀ (w : Word) (rest : List Word), w &&& 0xFE0F#16 = 0x9406#16 →
    decode (w :: rest) = .ok (.lsr (reg5 (w.extractLsb' 4 5)), rest)) ∧
  ∀ (d : Reg) (s : State), ∃ t, exec (.lsr d) s = .next t ∧
    t.reg d = 0#1 ++ (s.reg d).extractLsb' 1 7 ∧
    t.sreg.C = (s.reg d).getLsbD 0 ∧ t.sreg.N = false ∧ (t.sreg.Z = true ↔ t.reg d = 0x00#8) ∧
    t.sreg.V = (t.sreg.N ^^ t.sreg.C) ∧ t.sreg.S = (t.sreg.N ^^ t.sreg.V) ∧
    t.sreg.I = s.sreg.I ∧ t.sreg.T = s.sreg.T ∧ t.sreg.H = s.sreg.H ∧
    t.pc = s.pc + 1 ∧ (∀ j, j ≠ d → t.reg j = s.reg j) ∧ s.MemorySame t ∧ t.draws = s.draws

/-- R116: the arithmetic reading of LSR, which the spec derives from R115, whose operation line is reconstructed and
agrees with general knowledge (G8; log entry 12). -/
def Obligations.LsrArithmetically : Prop :=
  ∀ (d : Reg) (s : State), ∃ t, exec (.lsr d) s = .next t ∧
    (t.reg d).toNat = (s.reg d).toNat / 2 ∧ t.sreg.C.toNat = (s.reg d).toNat % 2 ∧
    (s.reg d).toNat = 2 * (t.reg d).toNat + t.sreg.C.toNat

/-- R120: MOV, its encoding and result, and what it leaves alone. -/
def Obligations.MovResult : Prop :=
  (∀ (w : Word) (rest : List Word), w &&& 0xFC00#16 = 0x2C00#16 →
    decode (w :: rest) =
      .ok (.mov (reg5 (w.extractLsb' 4 5)) (reg5 (w.extractLsb' 9 1 ++ w.extractLsb' 0 4)), rest)) ∧
  ∀ (d r : Reg) (s : State), ∃ t, exec (.mov d r) s = .next t ∧
    t.reg d = s.reg r ∧ t.reg r = s.reg r ∧ (∀ j, j ≠ d → t.reg j = s.reg j) ∧
    t.sreg = s.sreg ∧ t.pc = s.pc + 1 ∧ s.MemorySame t ∧ t.draws = s.draws

/-- R122: MOVW, its encoding and result, and what it leaves alone, on a device that has it. -/
def Obligations.MovwResult : Prop :=
  (∀ (w : Word) (rest : List Word), w &&& 0xFF00#16 = 0x0100#16 →
    ∃ d r : Reg, d.val = 2 * (w.extractLsb' 4 4).toNat ∧ r.val = 2 * (w.extractLsb' 0 4).toNat ∧
      decode (w :: rest) = .ok (.movw d r, rest)) ∧
  ∀ (d dh r rh : Reg) (s : State), d.val % 2 = 0 → r.val % 2 = 0 → dh.val = d.val + 1 → rh.val = r.val + 1 →
    available s.params .movw = true →
    ∃ t, exec (.movw d r) s = .next t ∧
      t.reg d = s.reg r ∧ t.reg dh = s.reg rh ∧ t.reg r = s.reg r ∧ t.reg rh = s.reg rh ∧
      (∀ j, j ≠ d → j ≠ dh → t.reg j = s.reg j) ∧
      t.sreg = s.sreg ∧ t.pc = s.pc + 1 ∧ s.MemorySame t ∧ t.draws = s.draws

/-- R123: MOVW is refused on a device that lacks it. The refusal is the spec's decision D1, and the entry is the
device's (log entry 26). -/
def Obligations.MovwIsRefusedWhereMissing : Prop :=
  ∀ s : State, s.params.hasMovw = false → s.pc < s.params.flashWords →
    s.progWord s.pc &&& 0xFF00#16 = 0x0100#16 → step s = .refused .instructionNotAvailable

/-- R106: LDI, its encoding and result, and what it leaves alone. -/
def Obligations.LdiResult : Prop :=
  (∀ (w : Word) (rest : List Word), w &&& 0xF000#16 = 0xE000#16 →
    ∃ d : Reg, d.val = 16 + (w.extractLsb' 4 4).toNat ∧
      decode (w :: rest) = .ok (.ldi d (w.extractLsb' 8 4 ++ w.extractLsb' 0 4), rest)) ∧
  ∀ (d : Reg) (K : BitVec 8) (s : State), 16 ≤ d.val → ∃ t, exec (.ldi d K) s = .next t ∧
    t.reg d = K ∧ (∀ j, j ≠ d → t.reg j = s.reg j) ∧
    t.sreg = s.sreg ∧ t.pc = s.pc + 1 ∧ s.MemorySame t ∧ t.draws = s.draws

/-- R79: ADIW, ANDI, LDI and MOVW given a register they cannot name are refused by name (the model's choice for a term
no word decodes to: log entry 9). -/
def Obligations.UnencodableOperandsAreRefused : Prop :=
  ∀ (i : Instr) (s : State), i.wf = false → available s.params i.mnemonic = true →
    exec i s = .refused .operandOutOfRange

/-! ### The loads -/

/-- R43: what a read of the data space answers, by what stands at the address. "The `Io` and `Unmapped` arms are this
spec's" (decision D4). Only an I/O read changes anything, and that is the model's own count of drawn bytes (log entry
4). -/
def Obligations.DataReadsByRegion : Prop :=
  ∀ (s : State) (a : Addr),
    (s.target a = .sram → memRead s a = .ok (s.ram a, s)) ∧
    (∀ i, s.target a = .reg i → memRead s a = .ok (s.reg i, s)) ∧
    (∀ j, s.target a = .io j → ∃ v, memRead s a = .ok (v, s.countDraw)) ∧
    (s.target a = .unmapped → memRead s a = .error .unmappedDataAddress)

/-- R58: what a store to the data space would do. No instruction calls it. -/
def Obligations.DataWritesByRegion : Prop :=
  ∀ (s : State) (a : Addr) (v : Byte),
    (s.target a = .sram → Memory.wf s.data → ∃ t, memWrite s a v = .ok t ∧ t.ram a = v ∧
      (∀ b, b ≠ a → t.ram b = s.ram b) ∧ Memory.wf t.data ∧ t = { s with data := t.data }) ∧
    (∀ i, s.target a = .reg i → memWrite s a v = .ok (s.setReg i v)) ∧
    (∀ j, s.target a = .io j → memWrite s a v = .error .unmodelledStoreTarget) ∧
    (s.target a = .unmapped → memWrite s a v = .error .unmodelledStoreTarget)

/-- R13: `DATA_MAP` is any function of the address: every one of them is some list of ranges. -/
def Obligations.EveryDataMapIsAListOfRanges : Prop :=
  ∀ f : Addr → Target, ∃ m : List MapRange, ∀ a, dataTarget m a = f a

/-- R101: LD Rd,Z, its encoding and result, and what it leaves alone; an unmapped address is refused. Its word is
decoded as LDD with `q = 0` (R73), which does the same on every device (R104; log entry 8). The encoding, the operand
range and the untouched flags are what the spec marks "from general knowledge, not in source" (log entry 12); the byte
an I/O location gives is log entry 4. -/
def Obligations.LdZResult : Prop :=
  (∀ (w : Word) (rest : List Word), w &&& 0xFE0F#16 = 0x8000#16 →
    decode (w :: rest) = .ok (.lddZ (reg5 (w.extractLsb' 4 5)) 0, rest)) ∧
  (∀ (d : Reg) (s : State), encode (.ldZ d) = encode (.lddZ d 0) ∧ exec (.lddZ d 0) s = exec (.ldZ d) s) ∧
  ∀ (d : Reg) (s : State),
    (s.target (s.reg 31 ++ s.reg 30) ≠ .unmapped → ∃ v t, exec (.ldZ d) s = .next t ∧
      s.Loads (s.reg 31 ++ s.reg 30) v ∧ t.reg d = v ∧ (∀ j, j ≠ d → t.reg j = s.reg j) ∧
      t.sreg = s.sreg ∧ t.pc = s.pc + 1 ∧ s.MemorySame t) ∧
    (s.target (s.reg 31 ++ s.reg 30) = .unmapped → exec (.ldZ d) s = .refused .unmappedDataAddress)

/-- R102: LD Rd,Z+, its encoding, result and refusals (R105, decision D19), and what it leaves alone. The encoding,
the operand range and the untouched flags are what the spec marks "from general knowledge, not in source" (log entry
12); the byte an I/O location gives is log entry 4. -/
def Obligations.LdZPostIncrementResult : Prop :=
  (∀ (w : Word) (rest : List Word), w &&& 0xFE0F#16 = 0x9001#16 →
    decode (w :: rest) = .ok (.ldZInc (reg5 (w.extractLsb' 4 5)), rest)) ∧
  ∀ (d : Reg) (s : State) (z : Addr), z = s.reg 31 ++ s.reg 30 →
    (d = 30 ∨ d = 31 → exec (.ldZInc d) s = .refused .ldPostincIntoZ) ∧
    (d ≠ 30 → d ≠ 31 → z = 0xFFFF#16 → exec (.ldZInc d) s = .refused .zPointerOverflow) ∧
    (d ≠ 30 → d ≠ 31 → z ≠ 0xFFFF#16 → s.target z = .unmapped → exec (.ldZInc d) s = .refused .unmappedDataAddress) ∧
    (d ≠ 30 → d ≠ 31 → z ≠ 0xFFFF#16 → s.target z ≠ .unmapped → ∃ v t, exec (.ldZInc d) s = .next t ∧
      s.Loads z v ∧ t.reg d = v ∧ (t.reg 31 ++ t.reg 30 : Word).toNat = z.toNat + 1 ∧
      (∀ j, j ≠ d → j ≠ 30 → j ≠ 31 → t.reg j = s.reg j) ∧
      t.sreg = s.sreg ∧ t.pc = s.pc + 1 ∧ s.MemorySame t)

/-- R103: LD Rd,-Z, its encoding, result and refusals (R105, decision D19), and what it leaves alone. Where Z - 1 is
mapped to `r30` or `r31` itself, the byte is the register's value before the step (R19, R43), although R103 writes the
new Z on the line before (log entry 30). The encoding, the operand range and the untouched flags are what the spec
marks "from general knowledge, not in source" (log entry 12); the byte an I/O location gives is log entry 4. -/
def Obligations.LdZPreDecrementResult : Prop :=
  (∀ (w : Word) (rest : List Word), w &&& 0xFE0F#16 = 0x9002#16 →
    decode (w :: rest) = .ok (.ldZDec (reg5 (w.extractLsb' 4 5)), rest)) ∧
  ∀ (d : Reg) (s : State) (z : Addr), z = s.reg 31 ++ s.reg 30 →
    (d = 30 ∨ d = 31 → exec (.ldZDec d) s = .refused .ldPredecIntoZ) ∧
    (d ≠ 30 → d ≠ 31 → z = 0x0000#16 → exec (.ldZDec d) s = .refused .zPointerUnderflow) ∧
    (d ≠ 30 → d ≠ 31 → z ≠ 0x0000#16 → s.target (z - 1) = .unmapped →
      exec (.ldZDec d) s = .refused .unmappedDataAddress) ∧
    (d ≠ 30 → d ≠ 31 → z ≠ 0x0000#16 → s.target (z - 1) ≠ .unmapped → ∃ v t, exec (.ldZDec d) s = .next t ∧
      s.Loads (z - 1) v ∧ t.reg d = v ∧ (t.reg 31 ++ t.reg 30 : Word).toNat + 1 = z.toNat ∧
      (∀ j, j ≠ d → j ≠ 30 → j ≠ 31 → t.reg j = s.reg j) ∧
      t.sreg = s.sreg ∧ t.pc = s.pc + 1 ∧ s.MemorySame t)

/-- R104: LDD Rd,Z+q, its encoding, result and refusals (R105, decision D19), and what it leaves alone; with `q = 0`
its word is that of `LD Rd,Z` and it does the same, on every device (log entry 8). The encoding, the operand range and
the untouched flags are what the spec marks "from general knowledge, not in source" (log entry 12); the byte an I/O
location gives is log entry 4. -/
def Obligations.LddZResult : Prop :=
  (∀ (w : Word) (rest : List Word), w &&& 0xD208#16 = 0x8000#16 →
    decode (w :: rest) =
      .ok (.lddZ (reg5 (w.extractLsb' 4 5)) (w.extractLsb' 13 1 ++ w.extractLsb' 10 2 ++ w.extractLsb' 0 3), rest)) ∧
  (∀ (d : Reg) (s : State), encode (.lddZ d 0) = encode (.ldZ d) ∧ exec (.lddZ d 0) s = exec (.ldZ d) s) ∧
  ∀ (d : Reg) (q : BitVec 6) (s : State) (z : Addr), z = s.reg 31 ++ s.reg 30 →
    (s.params.core = .avrrc → q ≠ 0 → exec (.lddZ d q) s = .refused .instructionNotAvailable) ∧
    (q = 0 ∨ available s.params .lddZ = true → 0xFFFF < z.toNat + q.toNat →
      exec (.lddZ d q) s = .refused .zDisplacementOverflow) ∧
    ∀ a : Addr, q = 0 ∨ available s.params .lddZ = true → a.toNat = z.toNat + q.toNat →
      (s.target a = .unmapped → exec (.lddZ d q) s = .refused .unmappedDataAddress) ∧
      (s.target a ≠ .unmapped → ∃ v t, exec (.lddZ d q) s = .next t ∧
        s.Loads a v ∧ t.reg d = v ∧ (∀ j, j ≠ d → t.reg j = s.reg j) ∧
        t.sreg = s.sreg ∧ t.pc = s.pc + 1 ∧ s.MemorySame t)

/-- R108: LDS, its encoding and result, and what it leaves alone, on a device that has it; an unmapped address (R43,
decision D4), and an address word outside program memory (R44, decision D2), are refused. R108 leaves the byte of an
I/O location unconstrained; that it is the free value of this read is log entry 4. -/
def Obligations.LdsResult : Prop :=
  (∀ (w w2 : Word) (rest : List Word), w &&& 0xFE0F#16 = 0x9000#16 →
    decode (w :: w2 :: rest) = .ok (.lds (reg5 (w.extractLsb' 4 5)) w2, rest)) ∧
  ∀ (d : Reg) (k : Addr) (s : State), available s.params .lds = true →
    (s.target k ≠ .unmapped → ∃ v t, exec (.lds d k) s = .next t ∧
      s.Loads k v ∧ t.reg d = v ∧ (∀ j, j ≠ d → t.reg j = s.reg j) ∧
      t.sreg = s.sreg ∧ t.pc = s.pc + 2 ∧ s.MemorySame t) ∧
    (s.target k = .unmapped → exec (.lds d k) s = .refused .unmappedDataAddress) ∧
    (s.pc + 1 = s.params.flashWords → s.progWord s.pc &&& 0xFE0F#16 = 0x9000#16 →
      step s = .refused .fetchOutsideProgramMemory)

/-- R111, which the spec derives from R108 and R43: LDS from an address where a register stands does what MOV from
that register does, but for the length. -/
def Obligations.LdsFromAMappedRegisterIsAMove : Prop :=
  ∀ (d i : Reg) (k : Addr) (s : State), available s.params .lds = true → s.target k = .reg i →
    ∃ t u, exec (.lds d k) s = .next t ∧ exec (.mov d i) s = .next u ∧ t = { u with pc := s.pc + 2 } ∧
      (i = d → t = { s with pc := s.pc + 2 })

/-- R49: a read of RAM or of a mapped register has no side effect and is idempotent. That an I/O read leaves
everything the spec gives the machine as it was is the spec's decision D4 (log entry 19); it moves only the model's
own count of drawn bytes (log entry 4). -/
def Obligations.DataReadsHaveNoSideEffect : Prop :=
  ∀ (s t : State) (a : Addr) (v : Byte), memRead s a = .ok (v, t) →
    t = { s with draws := t.draws } ∧ ((∀ j, s.target a ≠ .io j) → t = s ∧ memRead t a = .ok (v, t))

/-- R45: where the device maps a register pair to two addresses in ascending order, the low byte of the pair is read at
the lower one. -/
def Obligations.MappedPairLiesLowByteFirst : Prop :=
  ∀ (s : State) (d h : Reg) (a b : Addr), h.val = d.val + 1 → b.toNat = a.toNat + 1 →
    s.target a = .reg d → s.target b = .reg h →
    ∃ lo hi, memRead s a = .ok (lo, s) ∧ memRead s b = .ok (hi, s) ∧
      (s.pair d).toNat = lo.toNat + 256 * hi.toNat

/-! ### What every instruction leaves unchanged -/

/-- R28: every instruction that completes moves the program counter by its own length and does nothing else to it. -/
def Obligations.ProgramCounterMovesByTheLength : Prop :=
  ∀ (i : Instr) (s t : State), exec i s = .next t →
    ((∃ d k, i = .lds d k) → t.pc = s.pc + 2) ∧ ((∀ d k, i ≠ .lds d k) → t.pc = s.pc + 1)

/-- R33: the flag table. A flag the table does not give an instruction keeps its value; `V` after AND and ANDI, and
`N` after LSR, are 0. That a dash means not affected is log entry 29. For the four loads through Z the table reads
"table lost; none [from general knowledge, not in source]" (log entry 12). -/
def Obligations.FlagsWrittenAreTheTable : Prop :=
  ∀ (i : Instr) (s t : State), exec i s = .next t →
    (∀ f, f ∉ flagsWritten i.mnemonic → t.sreg.get f = s.sreg.get f) ∧
    (i.mnemonic = .and ∨ i.mnemonic = .andi → t.sreg.V = false) ∧ (i.mnemonic = .lsr → t.sreg.N = false)

/-- R32, which the spec derives from R80, R84, R90, R93 and R115: every instruction that writes `S` writes it as `N ^
V` of the `N` and `V` it writes, and LDI, LDS, MOV and MOVW leave all three alone. That the four loads through Z leave
them alone too is not in R32: it is R101 to R104, from general knowledge by the spec's own mark (log entry 12). -/
def Obligations.SignFlagIsNXorVWhereWritten : Prop :=
  ∀ (i : Instr) (s t : State), exec i s = .next t →
    (.S ∈ flagsWritten i.mnemonic → t.sreg.S = (t.sreg.N ^^ t.sreg.V)) ∧
    (.S ∉ flagsWritten i.mnemonic → t.sreg.S = s.sreg.S ∧ t.sreg.V = s.sreg.V ∧ t.sreg.N = s.sreg.N)

/-- R34: no instruction reads a flag. From two states that differ in their flags alone, an instruction ends the same
way, writes the same flags the same, and leaves states that differ in their flags alone. -/
def Obligations.NoInstructionReadsAFlag : Prop :=
  ∀ (i : Instr) (s : State) (f : Sreg),
    (∀ t, exec i s = .next t → ∃ u, exec i (s.setSreg f) = .next u ∧ u = t.setSreg u.sreg ∧
      ∀ x ∈ flagsWritten i.mnemonic, u.sreg.get x = t.sreg.get x) ∧
    (∀ r, exec i s = .refused r → exec i (s.setSreg f) = .refused r)

/-- R25, which the spec derives from the instructions' rules: the registers each instruction writes and reads. Every
register outside the written ones keeps its value, and when two states differ only in registers outside the read ones
(and outside the register that stands at the loaded address, if one does), the instruction ends the same way and gives
the written ones, the flags and `pc` the same values. -/
def Obligations.RegistersReadAndWrittenAreTheTable : Prop :=
  (∀ (i : Instr) (s t : State), exec i s = .next t → ∀ j, j ∉ regsWritten i → t.reg j = s.reg j) ∧
  ∀ (i : Instr) (s : State) (regs : Vector Byte 32) (s' : State), s' = { s with regs := regs } →
    (∀ j ∈ regsRead i, s'.reg j = s.reg j) →
    (∀ a j, loadAddress s i = some a → s.target a = .reg j → s'.reg j = s.reg j) →
    (∀ t, exec i s = .next t → ∃ t', exec i s' = .next t' ∧ (∀ j ∈ regsWritten i, t'.reg j = t.reg j) ∧
      t'.sreg = t.sreg ∧ t'.pc = t.pc ∧ t'.draws = t.draws) ∧
    (∀ r, exec i s = .refused r → exec i s' = .refused r)

/-- R48, R53, R55: no instruction writes memory. Along any run, the RAM, the program memory and the device stay as they
were at its start. -/
def Obligations.NoRunChangesMemory : Prop :=
  ∀ (n : Nat) (s t : State), runSteps n s = .next t →
    t.data = s.data ∧ t.prog = s.prog ∧ t.params = s.params

/-- R143, R152: no instruction touches `I` or `T`, so a run that starts with `I = 0` has `I = 0` throughout. -/
def Obligations.NoRunChangesTheInterruptFlag : Prop :=
  ∀ (n : Nat) (s t : State), runSteps n s = .next t → t.sreg.I = s.sreg.I ∧ t.sreg.T = s.sreg.T

/-! ### State -/

/-- R21: no register is hardwired and none is read-only. -/
def Obligations.NoRegisterIsHardwired : Prop :=
  ∀ (s : State) (i j : Reg) (v : Byte), (s.setReg i v).reg i = v ∧ (j ≠ i → (s.setReg i v).reg j = s.reg j)

/-- R23: a pair is two of the registers, the higher-numbered one the high byte, and writing it writes both. -/
def Obligations.PairIsTwoRegisters : Prop :=
  ∀ (s : State) (d h : Reg) (v : Word), h.val = d.val + 1 →
    (s.pair d).toNat = (s.reg h).toNat * 256 + (s.reg d).toNat ∧ (s.setPair d v).pair d = v ∧
    ∀ j, j ≠ d → j ≠ h → (s.setPair d v).reg j = s.reg j

/-- R35 (positions from general knowledge, log entry 11): the flags of `SREG` printed as the bits `ITHSVNZC`. -/
def Obligations.SregBitPositions : Prop :=
  ∀ f : Sreg, f.toByte.getLsbD 0 = f.C ∧ f.toByte.getLsbD 1 = f.Z ∧ f.toByte.getLsbD 2 = f.N ∧
    f.toByte.getLsbD 3 = f.V ∧ f.toByte.getLsbD 4 = f.S ∧ f.toByte.getLsbD 5 = f.H ∧ f.toByte.getLsbD 6 = f.T ∧
    f.toByte.getLsbD 7 = f.I

/-- R160, R161: the state after reset is a start state. Its values are the model's (log entries 2 and 3): the source
gives none. -/
def Obligations.ResetStartsAtStartPc : Prop :=
  State.reset.IsStart ∧ State.reset.pc = 0 ∧ State.reset.sreg.toByte = 0 ∧ (∀ i, State.reset.reg i = 0) ∧
    State.reset.draws = 0

/-- R12, R29, R42, R44, R161: the invariant holds after reset. What the state after reset holds is the model's own
(log entries 2, 5 and 6): the rules give no reset value. -/
def Obligations.InvariantHoldsAtReset : Prop := State.reset.Inv

/-- R12, R29, R42, R44, R161: every step keeps the invariant: both memories in canonical form and in their address
spaces, the parameters lawful, and `pc` at most one past program memory. -/
def Obligations.StepKeepsTheInvariant : Prop :=
  ∀ s t : State, s.Inv → step s = .next t → t.Inv

/-! ### Runs -/

/-- R163: a run is final when `pc = END_PC` first holds, and the instruction there is not executed; a refused state is
never final. -/
def Obligations.RunEndsWhenEndPcIsReached : Prop :=
  (∀ (n : Nat) (s : State), s.IsFinal → runToEnd n s = .final s) ∧
  (∀ (n : Nat) (s t : State), ¬ s.IsFinal → step s = .next t → runToEnd (n + 1) s = runToEnd n t) ∧
  (∀ (n : Nat) (s : State) (r : Refusal), ¬ s.IsFinal → step s = .refused r → runToEnd (n + 1) s = .refused r) ∧
  (∀ (n : Nat) (s t : State), runToEnd n s = .final t → t.IsFinal)

/-- R138, R163: there is no loop. The program counter only moves forward, so within as many steps as there are words of
program memory ahead, and one, every run reaches `END_PC` or is refused. -/
def Obligations.EveryRunEnds : Prop :=
  ∀ s : State, (∃ t, runToEnd (s.params.flashWords - s.pc + 1) s = .final t ∧ t.IsFinal) ∨
    (∃ r, runToEnd (s.params.flashWords - s.pc + 1) s = .refused r)

/-- R19, R138, R163: the machine that fetches is refined by the plain sequence of meanings. Where program memory holds
the encodings of a list of instructions from `pc` on, and `END_PC` is `pc` plus their total length in words, the run is
exactly those instructions one after another: it reaches `END_PC` after the last, or is refused on the way. -/
def Obligations.FragmentRunsAsItsInstructions : Prop :=
  ∀ (is : List Instr) (s : State),
    (∀ i ∈ is, i.wf = true ∧ admitted s.params i.mnemonic = true) →
    (∀ (n : Nat) (w : Word), (is.flatMap encode)[n]? = some w → s.progWord (s.pc + n) = w) →
    s.params.endPc = s.pc + (is.flatMap encode).length → s.params.endPc ≤ s.params.flashWords →
    runToEnd is.length s = execSeq is s ∧
      ((∃ t, execSeq is s = .final t ∧ t.pc = s.params.endPc) ∨ (∃ r, execSeq is s = .refused r))
end

