-- ==== Sys2Proof/Laws/Decode.lean ====
section
/-! SUPPORT. The rows of the opcode map do not overlap (R73), so a word in a row's set decodes by that row; and the
fixed bits of each picture. -/
namespace Sys2Proof

/-- Two rows that some bit fixed in both tells apart. -/
def OpcodeRow.apart (r r' : OpcodeRow) : Bool := (r.pattern ^^^ r'.pattern) &&& r.mask &&& r'.mask != 0

/-- No word is in two rows that are apart. -/
theorem OpcodeRow.not_both {r r' : OpcodeRow} (h : r.apart r' = true) {w : Word} (hw : r.matchesWord w = true) :
    r'.matchesWord w = false := by
  rw [Bool.eq_false_iff]
  intro hw'
  simp only [matchesWord, beq_iff_eq] at hw hw'
  have hzero : (r.pattern ^^^ r'.pattern) &&& r.mask &&& r'.mask = 0 := by
    rw [← hw, ← hw']
    apply BitVec.eq_of_getLsbD_eq
    intro i _
    simp only [BitVec.getLsbD_and, BitVec.getLsbD_xor]
    cases w.getLsbD i <;> cases r.mask.getLsbD i <;> cases r'.mask.getLsbD i <;> simp
  simp [apart, hzero] at h

/-- The rows are apart, but for `LDD Rd,Z+q` and, after it, `LD Rd,Z`, whose words are its own with `q = 0` (R73). -/
theorem opcodeMap_apart :
    opcodeMap.Pairwise fun r r' => r.apart r' = true ∨ (r.name = .lddZ ∧ r'.name = .ldZ) := by decide

theorem find?_eq_some_of_earlier {α : Type} {p : α → Bool} {l : List α} {x : α} (hx : x ∈ l) (hp : p x = true)
    (h : l.Pairwise fun a b => b = x → p a = false) : l.find? p = some x := by
  induction l with
  | nil => cases hx
  | cons a l ih =>
    have hl := List.pairwise_cons.1 h
    rcases List.mem_cons.1 hx with rfl | hx
    · simp [List.find?, hp]
    · simp [List.find?, hl.1 x hx rfl, ih hx hl.2]

/-- A word in a row's set has that row, unless the row is that of `LD Rd,Z`. -/
theorem rowOf_eq_some {r : OpcodeRow} (hr : r ∈ opcodeMap) {w : Word} (hw : r.matchesWord w = true)
    (hz : r.name ≠ .ldZ) : rowOf w = some r := by
  refine find?_eq_some_of_earlier hr hw ?_
  refine List.Pairwise.imp_of_mem ?_ opcodeMap_apart
  rintro a b - - hab rfl
  rcases hab with hab | ⟨-, hb⟩
  · rw [Bool.eq_false_iff]
    intro ha'
    rw [OpcodeRow.not_both hab ha'] at hw
    cases hw
  · exact absurd hb hz

/-- Everything a row lookup can answer: a row of the map, one of whose words the word is. -/
theorem rowOf_cases {w : Word} {r : OpcodeRow} (h : rowOf w = some r) : r ∈ opcodeMap ∧ r.matchesWord w = true :=
  ⟨List.mem_of_find?_eq_some h, List.find?_some (p := fun x : OpcodeRow => x.matchesWord w) h⟩

/-- No word has the row of `LD Rd,Z`: its words are decoded once, as LDD with `q = 0` (R73). -/
theorem rowOf_name_ne_ldZ {w : Word} {r : OpcodeRow} (h : rowOf w = some r) : r.name ≠ .ldZ := by
  intro hn
  have honly : ∀ a ∈ opcodeMap, a.name = .ldZ → a = ⟨.ldZ, 0xFE0F#16, 0x8000#16, 1⟩ := by decide
  have hw := (rowOf_cases h).2
  rw [honly r (rowOf_cases h).1 hn] at hw
  simp only [OpcodeRow.matchesWord, beq_iff_eq] at hw
  have hsub : w &&& 0xD208#16 = 0x8000#16 := by
    rw [show (0xD208#16 : Word) = 0xFE0F#16 &&& 0xD208#16 from rfl, ← BitVec.and_assoc, hw]
    rfl
  have hldd : rowOf w = some ⟨.lddZ, 0xD208#16, 0x8000#16, 1⟩ :=
    rowOf_eq_some (by decide) (by simpa [OpcodeRow.matchesWord] using hsub) (by simp)
  rw [h, Option.some.injEq] at hldd
  rw [hldd] at hn
  cases hn

/-- Everything the decoder can answer with an instruction: the operands of the row of the first word, with one or two
words taken. -/
theorem decode_cases {ws rest : List Word} {i : Instr} (h : decode ws = .ok (i, rest)) :
    (∃ w row, ws = w :: rest ∧ rowOf w = some row ∧ row.words = 1 ∧ i = operandsOf row.name w 0) ∨
    (∃ w w2 row, ws = w :: w2 :: rest ∧ rowOf w = some row ∧ row.words ≠ 1 ∧ i = operandsOf row.name w w2) := by
  unfold decode at h
  split at h
  · cases h
  · next w rest' =>
    split at h
    · cases h
    · next row hrow =>
      split at h
      · next h1 =>
        simp only [Except.ok.injEq, Prod.mk.injEq] at h
        exact .inl ⟨w, row, by rw [h.2], hrow, h1, h.1.symm⟩
      · next h1 =>
        split at h
        · cases h
        · next w2 rest2 =>
          simp only [Except.ok.injEq, Prod.mk.injEq] at h
          exact .inr ⟨w, w2, row, by rw [h.2], hrow, h1, h.1.symm⟩

/-! ### The fixed bits of the pictures -/

theorem and_eq_of_bits {w m p : Word} (h : ∀ i, i < 16 → (w.getLsbD i && m.getLsbD i) = p.getLsbD i) :
    w &&& m = p :=
  BitVec.eq_of_getLsbD_eq fun i hi => by simpa using h i hi

theorem formatRdRr_and_mask (opc : BitVec 6) (d r : Reg) : formatRdRr opc d r &&& 0xFC00#16 = opc ++ 0#10 := by
  refine and_eq_of_bits fun i hi => ?_
  simp only [formatRdRr, BitVec.getLsbD_append]
  interval_cases i <;> simp

theorem formatRdK8_and_mask (opc : BitVec 4) (d : Reg) (K : BitVec 8) :
    formatRdK8 opc d K &&& 0xF000#16 = opc ++ 0#12 := by
  refine and_eq_of_bits fun i hi => ?_
  simp only [formatRdK8, BitVec.getLsbD_append]
  interval_cases i <;> simp

theorem formatRd5_and_mask (opc : BitVec 7) (d : Reg) (low : BitVec 4) :
    formatRd5 opc d low &&& 0xFE0F#16 = opc ++ 0#5 ++ low := by
  refine and_eq_of_bits fun i hi => ?_
  simp only [formatRd5, BitVec.getLsbD_append]
  interval_cases i <;> simp

end Sys2Proof
end

