-- ==== Sys2Proof/Laws/State.lean ====
section
/-! SUPPORT. What each field of the state, and each reading of it, is after each update: one lemma each, so that no
later proof unfolds a record update. -/
namespace Sys2Proof.Machine

variable (s : State)

/-! ### After `setReg` -/

@[simp] theorem State.setReg_regs (i : Reg) (v : Byte) : (s.setReg i v).regs = s.regs.set i.val v := rfl
@[simp] theorem State.setReg_pc (i : Reg) (v : Byte) : (s.setReg i v).pc = s.pc := rfl
@[simp] theorem State.setReg_sreg (i : Reg) (v : Byte) : (s.setReg i v).sreg = s.sreg := rfl
@[simp] theorem State.setReg_data (i : Reg) (v : Byte) : (s.setReg i v).data = s.data := rfl
@[simp] theorem State.setReg_prog (i : Reg) (v : Byte) : (s.setReg i v).prog = s.prog := rfl
@[simp] theorem State.setReg_draws (i : Reg) (v : Byte) : (s.setReg i v).draws = s.draws := rfl
@[simp] theorem State.setReg_params (i : Reg) (v : Byte) : (s.setReg i v).params = s.params := rfl
@[simp] theorem State.setReg_progWord (i : Reg) (v : Byte) (p : Nat) : (s.setReg i v).progWord p = s.progWord p := rfl
@[simp] theorem State.setReg_ram (i : Reg) (v : Byte) (a : Addr) : (s.setReg i v).ram a = s.ram a := rfl
@[simp] theorem State.setReg_target (i : Reg) (v : Byte) (a : Addr) : (s.setReg i v).target a = s.target a := rfl

/-! ### After `setPair` -/

@[simp] theorem State.setPair_pc (d : Reg) (v : Word) : (s.setPair d v).pc = s.pc := rfl
@[simp] theorem State.setPair_sreg (d : Reg) (v : Word) : (s.setPair d v).sreg = s.sreg := rfl
@[simp] theorem State.setPair_data (d : Reg) (v : Word) : (s.setPair d v).data = s.data := rfl
@[simp] theorem State.setPair_prog (d : Reg) (v : Word) : (s.setPair d v).prog = s.prog := rfl
@[simp] theorem State.setPair_draws (d : Reg) (v : Word) : (s.setPair d v).draws = s.draws := rfl
@[simp] theorem State.setPair_params (d : Reg) (v : Word) : (s.setPair d v).params = s.params := rfl
@[simp] theorem State.setPair_progWord (d : Reg) (v : Word) (p : Nat) : (s.setPair d v).progWord p = s.progWord p := rfl
@[simp] theorem State.setPair_ram (d : Reg) (v : Word) (a : Addr) : (s.setPair d v).ram a = s.ram a := rfl
@[simp] theorem State.setPair_target (d : Reg) (v : Word) (a : Addr) : (s.setPair d v).target a = s.target a := rfl

/-! ### After `setZ` -/

@[simp] theorem State.setZ_pc (v : Addr) : (s.setZ v).pc = s.pc := rfl
@[simp] theorem State.setZ_sreg (v : Addr) : (s.setZ v).sreg = s.sreg := rfl
@[simp] theorem State.setZ_data (v : Addr) : (s.setZ v).data = s.data := rfl
@[simp] theorem State.setZ_prog (v : Addr) : (s.setZ v).prog = s.prog := rfl
@[simp] theorem State.setZ_draws (v : Addr) : (s.setZ v).draws = s.draws := rfl
@[simp] theorem State.setZ_params (v : Addr) : (s.setZ v).params = s.params := rfl
@[simp] theorem State.setZ_progWord (v : Addr) (p : Nat) : (s.setZ v).progWord p = s.progWord p := rfl
@[simp] theorem State.setZ_ram (v : Addr) (a : Addr) : (s.setZ v).ram a = s.ram a := rfl
@[simp] theorem State.setZ_target (v : Addr) (a : Addr) : (s.setZ v).target a = s.target a := rfl

/-! ### After `setSreg` -/

@[simp] theorem State.setSreg_regs (f : Sreg) : (s.setSreg f).regs = s.regs := rfl
@[simp] theorem State.setSreg_pc (f : Sreg) : (s.setSreg f).pc = s.pc := rfl
@[simp] theorem State.setSreg_sreg (f : Sreg) : (s.setSreg f).sreg = f := rfl
@[simp] theorem State.setSreg_data (f : Sreg) : (s.setSreg f).data = s.data := rfl
@[simp] theorem State.setSreg_prog (f : Sreg) : (s.setSreg f).prog = s.prog := rfl
@[simp] theorem State.setSreg_draws (f : Sreg) : (s.setSreg f).draws = s.draws := rfl
@[simp] theorem State.setSreg_params (f : Sreg) : (s.setSreg f).params = s.params := rfl
@[simp] theorem State.setSreg_reg (f : Sreg) (j : Reg) : (s.setSreg f).reg j = s.reg j := rfl
@[simp] theorem State.setSreg_progWord (f : Sreg) (p : Nat) : (s.setSreg f).progWord p = s.progWord p := rfl
@[simp] theorem State.setSreg_ram (f : Sreg) (a : Addr) : (s.setSreg f).ram a = s.ram a := rfl
@[simp] theorem State.setSreg_target (f : Sreg) (a : Addr) : (s.setSreg f).target a = s.target a := rfl
@[simp] theorem State.setSreg_pair (f : Sreg) (e : Reg) : (s.setSreg f).pair e = s.pair e := rfl
@[simp] theorem State.setSreg_z (f : Sreg) : (s.setSreg f).z = s.z := rfl

/-! ### After `advance` -/

@[simp] theorem State.advance_regs (n : Nat) : (s.advance n).regs = s.regs := rfl
@[simp] theorem State.advance_pc (n : Nat) : (s.advance n).pc = s.pc + n := rfl
@[simp] theorem State.advance_sreg (n : Nat) : (s.advance n).sreg = s.sreg := rfl
@[simp] theorem State.advance_data (n : Nat) : (s.advance n).data = s.data := rfl
@[simp] theorem State.advance_prog (n : Nat) : (s.advance n).prog = s.prog := rfl
@[simp] theorem State.advance_draws (n : Nat) : (s.advance n).draws = s.draws := rfl
@[simp] theorem State.advance_params (n : Nat) : (s.advance n).params = s.params := rfl
@[simp] theorem State.advance_reg (n : Nat) (j : Reg) : (s.advance n).reg j = s.reg j := rfl
@[simp] theorem State.advance_progWord (n : Nat) (p : Nat) : (s.advance n).progWord p = s.progWord p := rfl
@[simp] theorem State.advance_ram (n : Nat) (a : Addr) : (s.advance n).ram a = s.ram a := rfl
@[simp] theorem State.advance_target (n : Nat) (a : Addr) : (s.advance n).target a = s.target a := rfl
@[simp] theorem State.advance_pair (n : Nat) (e : Reg) : (s.advance n).pair e = s.pair e := rfl
@[simp] theorem State.advance_z (n : Nat) : (s.advance n).z = s.z := rfl

/-! ### After `placeWord` -/

@[simp] theorem State.placeWord_regs (p : Nat) (w : Word) : (s.placeWord p w).regs = s.regs := rfl
@[simp] theorem State.placeWord_pc (p : Nat) (w : Word) : (s.placeWord p w).pc = s.pc := rfl
@[simp] theorem State.placeWord_sreg (p : Nat) (w : Word) : (s.placeWord p w).sreg = s.sreg := rfl
@[simp] theorem State.placeWord_data (p : Nat) (w : Word) : (s.placeWord p w).data = s.data := rfl
@[simp] theorem State.placeWord_prog (p : Nat) (w : Word) : (s.placeWord p w).prog = writeCell blankWord s.prog p w := rfl
@[simp] theorem State.placeWord_draws (p : Nat) (w : Word) : (s.placeWord p w).draws = s.draws := rfl
@[simp] theorem State.placeWord_params (p : Nat) (w : Word) : (s.placeWord p w).params = s.params := rfl
@[simp] theorem State.placeWord_reg (p : Nat) (w : Word) (j : Reg) : (s.placeWord p w).reg j = s.reg j := rfl
@[simp] theorem State.placeWord_ram (p : Nat) (w : Word) (a : Addr) : (s.placeWord p w).ram a = s.ram a := rfl
@[simp] theorem State.placeWord_target (p : Nat) (w : Word) (a : Addr) : (s.placeWord p w).target a = s.target a := rfl
@[simp] theorem State.placeWord_pair (p : Nat) (w : Word) (e : Reg) : (s.placeWord p w).pair e = s.pair e := rfl
@[simp] theorem State.placeWord_z (p : Nat) (w : Word) : (s.placeWord p w).z = s.z := rfl

/-! ### After `countDraw` -/

@[simp] theorem State.countDraw_regs : s.countDraw.regs = s.regs := rfl
@[simp] theorem State.countDraw_pc : s.countDraw.pc = s.pc := rfl
@[simp] theorem State.countDraw_sreg : s.countDraw.sreg = s.sreg := rfl
@[simp] theorem State.countDraw_data : s.countDraw.data = s.data := rfl
@[simp] theorem State.countDraw_prog : s.countDraw.prog = s.prog := rfl
@[simp] theorem State.countDraw_draws : s.countDraw.draws = s.draws + 1 := rfl
@[simp] theorem State.countDraw_params : s.countDraw.params = s.params := rfl
@[simp] theorem State.countDraw_reg (j : Reg) : s.countDraw.reg j = s.reg j := rfl
@[simp] theorem State.countDraw_progWord (p : Nat) : s.countDraw.progWord p = s.progWord p := rfl
@[simp] theorem State.countDraw_ram (a : Addr) : s.countDraw.ram a = s.ram a := rfl
@[simp] theorem State.countDraw_target (a : Addr) : s.countDraw.target a = s.target a := rfl
@[simp] theorem State.countDraw_pair (e : Reg) : s.countDraw.pair e = s.pair e := rfl
@[simp] theorem State.countDraw_z : s.countDraw.z = s.z := rfl

/-! ### Registers and pairs -/

@[simp] theorem State.reg_setReg_self (i : Reg) (v : Byte) : (s.setReg i v).reg i = v := by
  simp [State.reg, State.setReg]

theorem State.reg_setReg_ne {i j : Reg} (v : Byte) (h : j ≠ i) : (s.setReg i v).reg j = s.reg j := by
  have : i.val ≠ j.val := fun e => h (Fin.ext e.symm)
  simp [State.reg, State.setReg, this]

/-- Reading a register after writing one: the one law every register claim rests on. -/
theorem State.reg_setReg (i j : Reg) (v : Byte) : (s.setReg i v).reg j = if j = i then v else s.reg j := by
  split
  · next h => subst h; simp
  · next h => exact s.reg_setReg_ne v h

/-- The two registers of a pair are two registers. -/
@[simp] theorem pairHigh_ne (d : Reg) : pairHigh d ≠ d := by revert d; decide

@[simp] theorem ne_pairHigh (d : Reg) : d ≠ pairHigh d := (pairHigh_ne d).symm

@[simp] theorem State.setPair_reg_low (d : Reg) (v : Word) : (s.setPair d v).reg d = v.extractLsb' 0 8 := by
  simp [State.setPair, State.reg_setReg]

@[simp] theorem State.setPair_reg_high (d : Reg) (v : Word) :
    (s.setPair d v).reg (pairHigh d) = v.extractLsb' 8 8 := by
  simp [State.setPair]

theorem State.setPair_reg_ne {d j : Reg} (v : Word) (hl : j ≠ d) (hh : j ≠ pairHigh d) :
    (s.setPair d v).reg j = s.reg j := by
  simp [State.setPair, State.reg_setReg, hl, hh]

/-- A word is its high byte beside its low byte. -/
theorem word_bytes (v : Word) : v.extractLsb' 8 8 ++ v.extractLsb' 0 8 = v := by
  ext i hi
  simp only [BitVec.getElem_append, BitVec.getElem_extractLsb']
  split
  · simp [BitVec.getLsbD_eq_getElem (show i < 16 from hi)]
  · rw [← BitVec.getLsbD_eq_getElem]; congr 1; omega

/-- The low byte of a pair is its low register. -/
@[simp] theorem State.pair_low (d : Reg) : (s.pair d).extractLsb' 0 8 = s.reg d := by
  apply BitVec.eq_of_getLsbD_eq
  intro i hi
  simp only [State.pair, BitVec.getLsbD_extractLsb', BitVec.getLsbD_append]
  simp [hi]

/-- The high byte of a pair is its high register. -/
@[simp] theorem State.pair_high (d : Reg) : (s.pair d).extractLsb' 8 8 = s.reg (pairHigh d) := by
  apply BitVec.eq_of_getLsbD_eq
  intro i hi
  simp only [State.pair, BitVec.getLsbD_extractLsb', BitVec.getLsbD_append]
  simp [hi]

/-- A pair reads back what was written to it. -/
@[simp] theorem State.pair_setPair_self (d : Reg) (v : Word) : (s.setPair d v).pair d = v := by
  simp [State.pair, word_bytes]

@[simp] theorem State.z_setZ (v : Addr) : (s.setZ v).z = v := s.pair_setPair_self regZL v

theorem State.setZ_reg_ne {j : Reg} (v : Addr) (hl : j ≠ regZL) (hh : j ≠ regZH) : (s.setZ v).reg j = s.reg j :=
  s.setPair_reg_ne v hl hh

/-- `W[d] = R[d+1] * 256 + R[d]` (R23). -/
theorem State.pair_toNat (d : Reg) : (s.pair d).toNat = (s.reg (pairHigh d)).toNat * 256 + (s.reg d).toNat := by
  have := (s.reg d).isLt
  simp only [State.pair, BitVec.toNat_append]
  rw [← Nat.shiftLeft_add_eq_or_of_lt this, Nat.shiftLeft_eq]

/-- Two states are equal when every field of theirs is, the registers read one by one. -/
theorem State.ext_reg {s t : State} (hr : ∀ i, s.reg i = t.reg i) (hpc : s.pc = t.pc) (hf : s.sreg = t.sreg)
    (hd : s.data = t.data) (hp : s.prog = t.prog) (hn : s.draws = t.draws) (hm : s.params = t.params) : s = t := by
  have : s.regs = t.regs := Vector.ext fun i hi => hr ⟨i, hi⟩
  cases s; cases t; simp_all

end Sys2Proof.Machine
end

