-- ==== Sys2Proof/Laws/Memory.lean ====
section
/-! SUPPORT. The laws of a memory held as cells in canonical form: a read after a write, and that a write keeps the
form. -/
namespace Sys2Proof.Machine

variable {n : Nat} {blank : BitVec n}

@[simp] theorem readCell_nil (x : Nat) : readCell blank [] x = blank := rfl

theorem readCell_consCell (x y : Nat) (v : BitVec n) (rest : List (Nat × BitVec n))
    (h : readCell blank rest x = blank) :
    readCell blank (consCell blank x v rest) y = if y = x then v else readCell blank rest y := by
  unfold consCell
  by_cases hv : v = blank
  · by_cases hy : y = x
    · subst hy; simp [hv, h]
    · simp [hv, hy]
  · simp [hv, readCell]

/-- An address below every listed one reads as blank. -/
theorem readCell_of_lt {cells : List (Nat × BitVec n)} {x : Nat} (h : ∀ c ∈ cells, x < c.1) :
    readCell blank cells x = blank := by
  induction cells with
  | nil => rfl
  | cons c rest ih =>
    have hx := h c (by simp)
    have : x ≠ c.1 := by omega
    obtain ⟨a, b⟩ := c
    simp only [readCell, if_neg this]
    exact ih fun c hc => h c (by simp [hc])

/-- Reading after writing, at any two addresses. -/
theorem readCell_writeCell {cells : List (Nat × BitVec n)} (h : cellsWf blank cells) (x y : Nat) (v : BitVec n) :
    readCell blank (writeCell blank cells x v) y = if y = x then v else readCell blank cells y := by
  induction cells with
  | nil => rw [writeCell, readCell_consCell _ _ _ _ rfl]
  | cons c rest ih =>
    obtain ⟨a, b⟩ := c
    obtain ⟨hp, hb⟩ := h
    rw [List.pairwise_cons] at hp
    have hrest : cellsWf blank rest := ⟨hp.2, fun c hc => hb c (by simp [hc])⟩
    unfold writeCell
    by_cases h1 : x < a
    · rw [if_pos h1]
      refine readCell_consCell x y v _ (readCell_of_lt fun c hc => ?_)
      rcases List.mem_cons.1 hc with rfl | hc
      · exact h1
      · have := hp.1 c hc; simp at this; omega
    · rw [if_neg h1]
      by_cases h2 : x = a
      · subst h2
        rw [if_pos rfl, readCell_consCell x y v _ (readCell_of_lt fun c hc => hp.1 c hc)]
        by_cases hy : y = x <;> simp [readCell, hy]
      · rw [if_neg h2]
        by_cases hy : y = a
        · subst hy; simp [readCell, Ne.symm h2]
        · simp [readCell, hy, ih hrest]

/-- Every cell after a write is the one written or one of those before. -/
theorem mem_writeCell {cells : List (Nat × BitVec n)} {x : Nat} {v : BitVec n} {c : Nat × BitVec n}
    (h : c ∈ writeCell blank cells x v) : (c = (x, v) ∧ v ≠ blank) ∨ c ∈ cells := by
  induction cells with
  | nil => unfold writeCell consCell at h; split at h <;> simp_all
  | cons c' rest ih =>
    obtain ⟨a, b⟩ := c'
    unfold writeCell consCell at h
    split at h
    · split at h <;> simp_all
    · split at h
      · split at h
        · simp_all
        · rcases List.mem_cons.1 h with rfl | h <;> simp_all
      · rcases List.mem_cons.1 h with rfl | h
        · simp
        · rcases ih h with h | h
          · exact .inl h
          · exact .inr (by simp [h])

theorem cellsWf_consCell {x : Nat} {v : BitVec n} {rest : List (Nat × BitVec n)} (h : cellsWf blank rest)
    (hx : ∀ c ∈ rest, x < c.1) : cellsWf blank (consCell blank x v rest) := by
  unfold consCell
  split
  · exact h
  · next hv => exact ⟨List.pairwise_cons.2 ⟨hx, h.1⟩, by simpa [hv] using h.2⟩

/-- A write keeps the canonical form. -/
theorem writeCell_wf {cells : List (Nat × BitVec n)} (h : cellsWf blank cells) (x : Nat) (v : BitVec n) :
    cellsWf blank (writeCell blank cells x v) := by
  induction cells with
  | nil => exact cellsWf_consCell h (by simp)
  | cons c rest ih =>
    obtain ⟨a, b⟩ := c
    have hp := List.pairwise_cons.1 h.1
    have hrest : cellsWf blank rest := ⟨hp.2, fun c hc => h.2 c (by simp [hc])⟩
    unfold writeCell
    by_cases h1 : x < a
    · rw [if_pos h1]
      refine cellsWf_consCell h fun c hc => ?_
      rcases List.mem_cons.1 hc with rfl | hc
      · exact h1
      · have := hp.1 c hc; simp at this; omega
    · rw [if_neg h1]
      by_cases h2 : x = a
      · subst h2
        rw [if_pos rfl]
        exact cellsWf_consCell hrest hp.1
      · rw [if_neg h2]
        refine ⟨List.pairwise_cons.2 ⟨fun c hc => ?_, (ih hrest).1⟩, fun c hc => ?_⟩
        · rcases mem_writeCell hc with ⟨rfl, -⟩ | hc
          · show a < x
            omega
          · exact hp.1 c hc
        · rcases List.mem_cons.1 hc with rfl | hc
          · exact h.2 _ (by simp)
          · exact (ih hrest).2 c hc

/-- In canonical form, equal contents are equal lists. -/
theorem cells_eq_of_readCell_eq {xs ys : List (Nat × BitVec n)} (hx : cellsWf blank xs) (hy : cellsWf blank ys)
    (h : ∀ a, readCell blank xs a = readCell blank ys a) : xs = ys := by
  induction xs generalizing ys with
  | nil =>
    cases ys with
    | nil => rfl
    | cons c rest => exact absurd (by simpa [readCell] using (h c.1).symm) (hy.2 c (by simp))
  | cons c xs ih =>
    obtain ⟨a, v⟩ := c
    have hpx := List.pairwise_cons.1 hx.1
    have hv : v ≠ blank := hx.2 (a, v) (by simp)
    cases ys with
    | nil => exact absurd (by simpa [readCell] using h a) hv
    | cons c' ys =>
      obtain ⟨b, w⟩ := c'
      have hpy := List.pairwise_cons.1 hy.1
      have hw : w ≠ blank := hy.2 (b, w) (by simp)
      have hab : a = b := by
        rcases Nat.lt_trichotomy a b with hlt | heq | hgt
        · have := h a
          rw [readCell, if_pos rfl, readCell, if_neg (by omega),
            readCell_of_lt fun c hc => Nat.lt_trans hlt (hpy.1 c hc)] at this
          exact absurd this hv
        · exact heq
        · have := h b
          rw [readCell, if_neg (by omega), readCell_of_lt (fun c hc => Nat.lt_trans hgt (hpx.1 c hc)), readCell,
            if_pos rfl] at this
          exact absurd this.symm hw
      subst hab
      have hvw : v = w := by simpa [readCell] using h a
      subst hvw
      congr 1
      refine ih ⟨hpx.2, fun c hc => hx.2 c (by simp [hc])⟩ ⟨hpy.2, fun c hc => hy.2 c (by simp [hc])⟩ fun y => ?_
      by_cases hya : y = a
      · subst hya
        rw [readCell_of_lt hpx.1, readCell_of_lt hpy.1]
      · simpa [readCell, hya] using h y

/-! ### RAM and program memory -/

@[simp] theorem reset_data_wf : Memory.wf State.reset.data := by decide

@[simp] theorem reset_prog_wf : Program.wf State.reset.prog := by decide

/-- Everything a store can do (R58): it keeps the canonical form of RAM, and changes one byte of it or one register. -/
theorem memWrite_cases {s t : State} {a : Addr} {v : Byte} (h : memWrite s a v = .ok t) :
    (s.target a = .sram ∧ t = { s with data := writeCell blankByte s.data a.toNat v }) ∨
    (∃ i, s.target a = .reg i ∧ t = s.setReg i v) := by
  unfold memWrite at h
  split at h
  · next ht => exact .inl ⟨ht, by simpa using h.symm⟩
  · next i ht => exact .inr ⟨i, ht, by simpa using h.symm⟩
  · cases h
  · cases h

theorem memWrite_wf {s t : State} {a : Addr} {v : Byte} (h : memWrite s a v = .ok t) (hs : Memory.wf s.data) :
    Memory.wf t.data := by
  rcases memWrite_cases h with ⟨-, rfl⟩ | ⟨i, -, rfl⟩
  · exact writeCell_wf hs a.toNat v
  · exact hs

theorem placeWord_wf {s : State} (h : Program.wf s.prog) (p : Nat) (w : Word) : Program.wf (s.placeWord p w).prog :=
  writeCell_wf h p w

/-- Reading a program word after placing one. -/
theorem progWord_placeWord {s : State} (h : Program.wf s.prog) (p q : Nat) (w : Word) :
    (s.placeWord p w).progWord q = if q = p then w else s.progWord q :=
  readCell_writeCell h p q w

end Sys2Proof.Machine
end

