-- ==== Sys2Proof/Laws/Ops.lean ====
section
/-! SUPPORT. For each shared operation, once, everything it can do. -/
namespace Sys2Proof.Machine

/-- Everything a data read can do (R43). The state it leaves differs in the count of drawn bytes alone. -/
theorem memRead_cases {s t : State} {a : Addr} {v : Byte} (h : memRead s a = .ok (v, t)) :
    (s.target a = .sram ∧ v = s.ram a ∧ t = s) ∨
    (∃ i, s.target a = .reg i ∧ v = s.reg i ∧ t = s) ∨
    (∃ j, s.target a = .io j ∧ v = Config.drawByte s.draws ∧ t = s.countDraw) := by
  unfold memRead at h
  split at h
  · next ht => simp only [Except.ok.injEq, Prod.mk.injEq] at h; exact .inl ⟨ht, h.1.symm, h.2.symm⟩
  · next i ht =>
    simp only [Except.ok.injEq, Prod.mk.injEq] at h
    exact .inr (.inl ⟨i, ht, h.1.symm, h.2.symm⟩)
  · next j ht =>
    simp only [Except.ok.injEq, Prod.mk.injEq] at h
    exact .inr (.inr ⟨j, ht, h.1.symm, h.2.symm⟩)
  · cases h

/-- The state a data read leaves: the one before, or that with one more byte drawn. -/
theorem memRead_state {s t : State} {a : Addr} {v : Byte} (h : memRead s a = .ok (v, t)) :
    t = s ∨ t = s.countDraw := by
  rcases memRead_cases h with ⟨-, -, rfl⟩ | ⟨i, -, -, rfl⟩ | ⟨j, -, -, rfl⟩
  exacts [.inl rfl, .inl rfl, .inr rfl]

/-- A data read answers a byte exactly where the device maps something, and the one refusal elsewhere. -/
theorem memRead_ok_iff (s : State) (a : Addr) :
    (∃ v t, memRead s a = .ok (v, t)) ↔ s.target a ≠ .unmapped := by
  unfold memRead
  split <;> simp_all

theorem memRead_unmapped {s : State} {a : Addr} (h : s.target a = .unmapped) :
    memRead s a = .error .unmappedDataAddress := by
  simp [memRead, h]

/-- The one way a data read is refused. -/
theorem memRead_error {s : State} {a : Addr} {r : Refusal} (h : memRead s a = .error r) :
    s.target a = .unmapped ∧ r = .unmappedDataAddress := by
  unfold memRead at h
  split at h <;> simp_all

/-- Everything a load's shared operation can answer. -/
theorem withByteAt_next {a : Addr} {s t : State} {finish : Byte → State → State}
    (h : withByteAt a s finish = .next t) : ∃ v u, memRead s a = .ok (v, u) ∧ t = finish v u := by
  unfold withByteAt at h
  split at h
  · cases h
  · next v u hm => exact ⟨v, u, hm, by injection h with h; exact h.symm⟩

theorem withByteAt_of_ok {a : Addr} {s u : State} {v : Byte} (finish : Byte → State → State)
    (h : memRead s a = .ok (v, u)) : withByteAt a s finish = .next (finish v u) := by
  simp [withByteAt, h]

theorem withByteAt_of_error {a : Addr} {s : State} {r : Refusal} (finish : Byte → State → State)
    (h : memRead s a = .error r) : withByteAt a s finish = .refused r := by
  simp [withByteAt, h]

theorem requireAvailable_next {m : Mnemonic} {s t : State} {go : Result}
    (h : requireAvailable m s go = .next t) : available s.params m = true ∧ go = .next t := by
  unfold requireAvailable at h
  split at h
  · next ha => exact ⟨ha, h⟩
  · cases h

theorem requireAvailable_of_true {m : Mnemonic} {s : State} (go : Result) (h : available s.params m = true) :
    requireAvailable m s go = go := by
  simp [requireAvailable, h]

theorem requireAvailable_of_false {m : Mnemonic} {s : State} (go : Result) (h : available s.params m = false) :
    requireAvailable m s go = .refused .instructionNotAvailable := by
  simp [requireAvailable, h]

@[simp] theorem lddRow_zero : lddRow 0 = .ldZ := rfl

theorem lddRow_of_ne {q : BitVec 6} (h : q ≠ 0) : lddRow q = .lddZ := if_neg h

/-- An LDD is available when it is `LD Rd,Z`, which every device has, or the device has LDD (R11, R104). -/
theorem available_lddRow (p : Params) (q : BitVec 6) :
    available p (lddRow q) = true ↔ q = 0 ∨ available p .lddZ = true := by
  by_cases h : q = 0
  · subst h
    exact ⟨fun _ => .inl rfl, fun _ => rfl⟩
  · rw [lddRow_of_ne h]
    exact ⟨.inr, fun k => k.resolve_left h⟩

theorem requireOperand_next {ok : Bool} {t : State} {go : Result} (h : requireOperand ok go = .next t) :
    ok = true ∧ go = .next t := by
  unfold requireOperand at h
  split at h
  · next ho => exact ⟨ho, h⟩
  · cases h

@[simp] theorem requireOperand_true (go : Result) : requireOperand true go = go := rfl

@[simp] theorem requireOperand_false (go : Result) : requireOperand false go = .refused .operandOutOfRange := rfl

/-- Everything a program read can answer (R44). -/
theorem progRead_cases (s : State) (p : Nat) :
    (p < s.params.flashWords ∧ progRead s p = .ok (s.progWord p)) ∨
    (s.params.flashWords ≤ p ∧ progRead s p = .error .fetchOutsideProgramMemory) := by
  unfold progRead
  split
  · next h => exact .inl ⟨h, rfl⟩
  · next h => exact .inr ⟨Nat.le_of_not_lt h, rfl⟩

/-- Everything the fetch can put before the decoder: no word, one, or two (R44). -/
theorem fetchWords_cases (s : State) :
    (s.params.flashWords ≤ s.pc ∧ fetchWords s = []) ∨
    (s.pc < s.params.flashWords ∧ s.params.flashWords ≤ s.pc + 1 ∧ fetchWords s = [s.progWord s.pc]) ∨
    (s.pc + 1 < s.params.flashWords ∧ fetchWords s = [s.progWord s.pc, s.progWord (s.pc + 1)]) := by
  unfold fetchWords
  rcases progRead_cases s s.pc with ⟨h, e⟩ | ⟨h, e⟩ <;> rcases progRead_cases s (s.pc + 1) with ⟨h', e'⟩ | ⟨h', e'⟩ <;>
    simp only [e, e']
  · simp [h']
  · simp [h, h']
  · simp [h]
  · simp [h]

/-- Everything the fetch of an instruction can answer with one. -/
theorem fetchInstr_ok {s : State} {i : Instr} (h : fetchInstr s = .ok i) :
    ∃ rest, decode (fetchWords s) = .ok (i, rest) ∧ admitted s.params i.mnemonic = true := by
  unfold fetchInstr at h
  split at h
  · cases h
  · cases h
  · split at h
    · cases h
    · split at h <;> cases h
  · next j rest hd =>
    split at h
    · next ha =>
      injection h with h
      subst h
      exact ⟨rest, hd, ha⟩
    · cases h

/-- A step that answers a next state ran the instruction it fetched. -/
theorem step_next {s t : State} (h : step s = .next t) : ∃ i, fetchInstr s = .ok i ∧ exec i s = .next t := by
  unfold step at h
  split at h
  · cases h
  · next i hi => exact ⟨i, hi, h⟩

theorem step_of_fetch {s : State} {i : Instr} (h : fetchInstr s = .ok i) : step s = exec i s := by
  simp [step, h]

theorem step_of_fetch_error {s : State} {r : Refusal} (h : fetchInstr s = .error r) : step s = .refused r := by
  simp [step, h]

@[simp] theorem isHalfOfZ_eq_true (d : Reg) : isHalfOfZ d = true ↔ d = regZL ∨ d = regZH := by
  simp [isHalfOfZ]

@[simp] theorem isHalfOfZ_eq_false (d : Reg) : isHalfOfZ d = false ↔ d ≠ regZL ∧ d ≠ regZH := by
  simp [isHalfOfZ]

theorem zDisplacementLeaves_eq_true (s : State) (q : BitVec 6) :
    zDisplacementLeaves s q = true ↔ 0xFFFF < s.z.toNat + q.toNat := decide_eq_true_iff

theorem zDisplacementLeaves_eq_false (s : State) (q : BitVec 6) :
    zDisplacementLeaves s q = false ↔ s.z.toNat + q.toNat ≤ 0xFFFF := by
  simp [zDisplacementLeaves]

/-- The displaced address is the sum as natural numbers, when that stays in 16 bits (R104). -/
theorem zDisplaced_toNat {s : State} {q : BitVec 6} (h : zDisplacementLeaves s q = false) :
    (zDisplaced s q).toNat = s.z.toNat + q.toNat := by
  rw [zDisplacementLeaves_eq_false] at h
  have := q.isLt
  simp only [zDisplaced, BitVec.toNat_add, BitVec.toNat_setWidth]
  omega

@[simp] theorem pairHigh_regZL : pairHigh regZL = regZH := by decide

/-! ### Flags -/

/-- Everything the shared flag write does (R32). -/
@[simp] theorem Sreg.setSVNZC_get (f : Sreg) (v n z c : Bool) :
    f.setSVNZC v n z c = ⟨f.I, f.T, f.H, n ^^ v, v, n, z, c⟩ := rfl

@[simp] theorem addFlags_keeps (a b res : Byte) (f : Sreg) :
    (addFlags a b res f).I = f.I ∧ (addFlags a b res f).T = f.T := ⟨rfl, rfl⟩

@[simp] theorem adiwFlags_keeps (x res : Word) (f : Sreg) :
    (adiwFlags x res f).I = f.I ∧ (adiwFlags x res f).T = f.T ∧ (adiwFlags x res f).H = f.H := ⟨rfl, rfl, rfl⟩

@[simp] theorem logicFlags_keeps (res : Byte) (f : Sreg) :
    (logicFlags res f).I = f.I ∧ (logicFlags res f).T = f.T ∧ (logicFlags res f).H = f.H ∧
      (logicFlags res f).C = f.C := ⟨rfl, rfl, rfl, rfl⟩

@[simp] theorem lsrFlags_keeps (a res : Byte) (f : Sreg) :
    (lsrFlags a res f).I = f.I ∧ (lsrFlags a res f).T = f.T ∧ (lsrFlags a res f).H = f.H := ⟨rfl, rfl, rfl⟩

/-- Printing the flags and reading them back (R35). -/
@[simp] theorem Sreg.ofByte_toByte (f : Sreg) : Sreg.ofByte f.toByte = f := by
  rcases f with ⟨_ | _, _ | _, _ | _, _ | _, _ | _, _ | _, _ | _, _ | _⟩ <;> rfl

end Sys2Proof.Machine
end

