-- ==== Sys2Proof/Laws/PerInstr.lean ====
section
/-! SUPPORT. The per-instruction family `EncodedWord`: the words of an instruction, which `encode` takes from the
pictures of R63 and R71, are as many as the instruction's length, and the first has the fixed bits the opcode map
(R72) gives its row. It says nothing of the operand bits and nothing of decoding. -/
namespace Sys2Proof.Laws.EncodedWord

/-- The encoder's words agree with the opcode map's mask, pattern and length. -/
def Statement (i : Instr) : Prop :=
  (encode i).length = i.words ∧
    ∃ row ∈ opcodeMap, row.name = i.mnemonic ∧ row.words = i.words ∧
      ∃ w rest, encode i = w :: rest ∧ row.matchesWord w = true

/-- A one-word instruction's family statement, from the fixed bits of its word. -/
theorem of_one_word {i : Instr} {m : Mnemonic} {w mask pattern : Word} (he : encode i = [w]) (hn : i.words = 1)
    (hm : m = i.mnemonic) (hr : ⟨m, mask, pattern, 1⟩ ∈ opcodeMap) (hw : w &&& mask = pattern) : Statement i :=
  ⟨by rw [he, hn]; rfl, _, hr, hm, hn.symm, w, [], he, by simpa [OpcodeRow.matchesWord] using hw⟩

theorem movw (d r : Reg) : Statement (.movw d r) := by
  refine of_one_word (m := .movw) (mask := 0xFF00#16) (pattern := 0x0100#16) rfl rfl rfl (by decide) ?_
  refine and_eq_of_bits fun i hi => ?_
  simp only [BitVec.getLsbD_append]
  interval_cases i <;> simp

theorem add (d r : Reg) : Statement (.add d r) :=
  of_one_word (m := .add) rfl rfl rfl (by decide) (formatRdRr_and_mask _ d r)

theorem and (d r : Reg) : Statement (.and d r) :=
  of_one_word (m := .and) rfl rfl rfl (by decide) (formatRdRr_and_mask _ d r)

theorem mov (d r : Reg) : Statement (.mov d r) :=
  of_one_word (m := .mov) rfl rfl rfl (by decide) (formatRdRr_and_mask _ d r)

theorem andi (d : Reg) (K : BitVec 8) : Statement (.andi d K) :=
  of_one_word (m := .andi) rfl rfl rfl (by decide) (formatRdK8_and_mask _ d K)

theorem lds (d : Reg) (k : Addr) : Statement (.lds d k) :=
  ⟨rfl, ⟨.lds, 0xFE0F#16, 0x9000#16, 2⟩, by decide, rfl, rfl, _, _, rfl,
    by simpa [OpcodeRow.matchesWord] using formatRd5_and_mask 0b1001000#7 d 0b0000#4⟩

theorem adiw (d : Reg) (K : BitVec 6) : Statement (.adiw d K) := by
  refine of_one_word (m := .adiw) (mask := 0xFF00#16) (pattern := 0x9600#16) rfl rfl rfl (by decide) ?_
  refine and_eq_of_bits fun i hi => ?_
  simp only [BitVec.getLsbD_append]
  interval_cases i <;> simp

theorem ldi (d : Reg) (K : BitVec 8) : Statement (.ldi d K) :=
  of_one_word (m := .ldi) rfl rfl rfl (by decide) (formatRdK8_and_mask _ d K)

theorem ldZ (d : Reg) : Statement (.ldZ d) :=
  of_one_word (m := .ldZ) rfl rfl rfl (by decide) (formatRd5_and_mask _ d _)

theorem ldZInc (d : Reg) : Statement (.ldZInc d) :=
  of_one_word (m := .ldZInc) rfl rfl rfl (by decide) (formatRd5_and_mask _ d _)

theorem ldZDec (d : Reg) : Statement (.ldZDec d) :=
  of_one_word (m := .ldZDec) rfl rfl rfl (by decide) (formatRd5_and_mask _ d _)

theorem lddZ (d : Reg) (q : BitVec 6) : Statement (.lddZ d q) := by
  refine of_one_word (m := .lddZ) (mask := 0xD208#16) (pattern := 0x8000#16) rfl rfl rfl (by decide) ?_
  refine and_eq_of_bits fun i hi => ?_
  simp only [BitVec.getLsbD_append]
  interval_cases i <;> simp

theorem lsr (d : Reg) : Statement (.lsr d) :=
  of_one_word (m := .lsr) rfl rfl rfl (by decide) (formatRd5_and_mask _ d _)

end Sys2Proof.Laws.EncodedWord
end

