-- ==== Sys2Proof/Laws/Run.lean ====
section
/-! SUPPORT. Runs of the machine: a run of more than no step is a step and a shorter run, and what every step keeps
every run keeps. -/
namespace Sys2Proof.Machine

/-- A run of `n + 1` steps that goes through is a step and a run of `n`. -/
theorem run_succ {n : Nat} {s t : State} (h : runSteps (n + 1) s = .next t) :
    ∃ u, step s = .next u ∧ runSteps n u = .next t := by
  unfold runSteps at h
  split at h
  · next u hu => exact ⟨u, hu, h⟩
  · cases h
  · cases h

@[simp] theorem run_zero (s : State) : runSteps 0 s = .next s := rfl

/-- A relation that is reflexive, transitive and holds across each step holds across each run. -/
theorem run_of_step {R : State → State → Prop} (hrefl : ∀ s, R s s) (htrans : ∀ {s t u}, R s t → R t u → R s u)
    (hstep : ∀ {s t}, step s = .next t → R s t) : ∀ {n : Nat} {s t : State}, runSteps n s = .next t → R s t := by
  intro n
  induction n with
  | zero => intro s t h; injection h with h; subst h; exact hrefl s
  | succ n ih =>
    intro s t h
    obtain ⟨u, hu, ht⟩ := run_succ h
    exact htrans (hstep hu) (ih ht)

/-- Both memories read the same where their cells are the same. -/
theorem memorySame_of_eq {s t : State} (hd : t.data = s.data) (hp : t.prog = s.prog) (hm : t.params = s.params) :
    s.MemorySame t :=
  ⟨fun a => by simp [State.ram, hd], fun p => by simp [State.progWord, hp], hm⟩

end Sys2Proof.Machine
end

