-- ==== Sys2Proof/Tests/Slice0.lean ====
section
/-! SUPPORT. The model's own tests. Every expected word, value and flag byte is copied from spec/95_test_vectors.md
(parts 1 and 2), or written out by hand from the picture of the instruction where the comment says so. The theorems
named `witness_…` show, for each statement of the certificates that has hypotheses, values that meet them together. -/
namespace Sys2Proof.Tests

open Sys2Proof.Machine

/-- `s` with the listed registers and the flags printed as `f`. -/
def setup (regs : List (Reg × Byte)) (f : Byte) (s : State) : State :=
  (regs.foldl (fun u p => u.setReg p.1 p.2) s).setSreg (Sreg.ofByte f)

/-- `s` with the listed bytes of RAM, at rising addresses. -/
def withRam (cells : List Host.Cell) (s : State) : State := { s with data := cells }

/-- `s` on another device. -/
def onDevice (p : Params) (s : State) : State := { s with params := p }

/-- `s` at another word address. -/
def atPc (n : Nat) (s : State) : State := { s with pc := n }

/-- What a meaning leaves in a next state, through a projection. -/
def after {α : Type} (r : Result) (f : State → α) : Option α :=
  match r with
  | .next t => some (f t)
  | .fault _ => none
  | .refused _ => none

/-- The name a meaning is refused under. -/
def stop (r : Result) : Option Refusal :=
  match r with
  | .next _ => none
  | .fault _ => none
  | .refused e => some e

/-- A device that has RAM at 0x0100 to 0x01FF only. -/
def sparse : Params := { Params.classic with dataMap := [⟨0x0100, 0x01FF, .sram⟩] }

/-- A reduced-core device. -/
def reduced : Params := { Params.classic with core := .avrrc }

/-- A device that admits only the source's rows and lacks MOVW and LDS. -/
def bare : Params := { Params.classic with admitPartial := false, hasMovw := false, hasLds := false }

/-- The memory of V-LD: `DS[0x0060..0x0064] = 0x11, 0x22, 0x33, 0x44, 0x55`. -/
def ramLd : List Host.Cell := [(0x60, 0x11#8), (0x61, 0x22#8), (0x62, 0x33#8), (0x63, 0x44#8), (0x64, 0x55#8)]

/-- V-LD's start state with the two bytes of Z. -/
def ldState (zh zl : Byte) : State := withRam ramLd (setup [(31, zh), (30, zl)] 0b01010101#8 State.reset)

/-! ### Well-formedness: an ill-formed term for each check (R79) -/

theorem test_wf_movw_odd_destination : (Instr.movw 17 0).wf = false := by decide
theorem test_wf_movw_odd_source : (Instr.movw 16 1).wf = false := by decide
theorem test_wf_andi_low_register : (Instr.andi 15 0xFF#8).wf = false := by decide
theorem test_wf_ldi_low_register : (Instr.ldi 15 1#8).wf = false := by decide
theorem test_wf_adiw_low_pair : (Instr.adiw 22 0#6).wf = false := by decide
theorem test_wf_adiw_odd_register : (Instr.adiw 25 0#6).wf = false := by decide

/-! ### Decoding: a word of each instruction, from part 1 and 2 of 95_test_vectors.md -/

theorem test_decode_movw : decode [0x010F#16] = .ok (.movw 0 30, []) := rfl
theorem test_decode_add : decode [0x0E0F#16] = .ok (.add 0 31, []) := rfl
theorem test_decode_and : decode [0x2221#16] = .ok (.and 2 17, []) := rfl
theorem test_decode_mov : decode [0x2D00#16] = .ok (.mov 16 0, []) := rfl
theorem test_decode_andi : decode [0x7A75#16] = .ok (.andi 23 0xA5, []) := rfl
theorem test_decode_lds : decode [0x9020#16, 0x0C12#16, 0x0C21#16] = .ok (.lds 2 0x0C12, [0x0C21#16]) := rfl
theorem test_decode_adiw : decode [0x96C0#16] = .ok (.adiw 24 48, []) := rfl
theorem test_decode_ldi : decode [0xE30C#16] = .ok (.ldi 16 0x3C, []) := rfl
/-- V-LD's `ld r31,Z`, which V-DEC calls "LD Z ... (= LDD q=0)" and R73 decodes as LDD. -/
theorem test_decode_ldZ : decode [0x81F0#16] = .ok (.lddZ 31 0, []) := rfl
theorem test_decode_ldZInc : decode [0x91E1#16] = .ok (.ldZInc 30, []) := rfl
theorem test_decode_ldZDec : decode [0x9032#16] = .ok (.ldZDec 3, []) := rfl
theorem test_decode_lddZ : decode [0xAC47#16] = .ok (.lddZ 4 63, []) := rfl
/-- `10q0 qq0d dddd 0qqq` written out by hand for `d = 16`, `q = 0b100010`: `1010 0001 0000 0010`. -/
theorem test_decode_lddZ_split_field : decode [0b1010000100000010#16] = .ok (.lddZ 16 0b100010, []) := rfl
theorem test_decode_lsr : decode [0x9506#16] = .ok (.lsr 16, []) := rfl

/-- V-DEC: the words refused with the partly specified rows admitted. -/
theorem test_refused_words :
    [0x0000#16, 0x00FF#16, 0x0200#16, 0x0BFF#16, 0x1000#16, 0x1C12#16, 0x1FFF#16, 0x2400#16, 0x2BFF#16, 0x3000#16,
      0x3101#16, 0x6FFF#16, 0x8048#16, 0x8240#16, 0x8FFF#16, 0x9003#16, 0x9004#16, 0x900F#16, 0x9200#16, 0x9405#16,
      0x9407#16, 0x940E#16, 0x9500#16, 0x9508#16, 0x95C8#16, 0x9700#16, 0xAC4F#16, 0xAE47#16, 0xBFFF#16, 0xC000#16,
      0xDFFF#16, 0xF000#16].all (fun w => (rowOf w).isNone) = true := by decide

/-- V-DEC: the bounds of the rows. -/
theorem test_row_bounds :
    [0x0100#16, 0x01FF#16, 0x0C00#16, 0x0FFF#16, 0x2000#16, 0x23FF#16, 0x2C00#16, 0x2FFF#16, 0x7000#16, 0x7FFF#16,
      0x9600#16, 0x96FF#16, 0xE000#16, 0xEFFF#16].map (fun w => (rowOf w).map OpcodeRow.name) =
    [some .movw, some .movw, some .add, some .add, some .and, some .and, some .mov, some .mov, some .andi, some .andi,
      some .adiw, some .adiw, some .ldi, some .ldi] := by decide

/-- An opcode-table word of two words, the first lowest. -/
theorem test_table_word_lds : decodeTableWord 32 0xFF009020 = some (.lds 2 0xFF00) := by decide

/-- S3's words, encoded. -/
theorem test_encode : encode (.and 2 16) = [0x2220#16] ∧ encode (.ldi 16 1) = [0xE001#16] ∧
    encode (.lds 31 0xFFFF) = [0x91F0#16, 0xFFFF#16] := by decide

/-! ### One step of each instruction (V tables; `SREG` printed `ITHSVNZC`) -/

theorem test_add_negative_overflow :
    after (exec (.add 1 2) (setup [(1, 0x80#8), (2, 0x80#8)] 0b00000000#8 State.reset))
      (fun t => (t.reg 1, t.sreg.toByte, t.pc)) = some (0x00#8, 0b00011011#8, 1) := by decide

theorem test_add_keeps_I_and_T :
    after (exec (.add 0 31) (setup [] 0b11111111#8 State.reset)) (fun t => (t.reg 0, t.sreg.toByte)) =
      some (0x00#8, 0b11000010#8) := by decide

theorem test_adiw_signed_overflow :
    after (exec (.adiw 24 1) (setup [(25, 0x7F#8), (24, 0xFF#8)] 0b00000000#8 State.reset))
      (fun t => (t.reg 25, t.reg 24, t.sreg.toByte)) = some (0x80#8, 0x00#8, 0b00001100#8) := by decide

theorem test_adiw_wraps :
    after (exec (.adiw 30 16) (setup [(31, 0xFF#8), (30, 0xF0#8)] 0b11100000#8 State.reset))
      (fun t => (t.reg 31, t.reg 30, t.sreg.toByte)) = some (0x00#8, 0x00#8, 0b11100011#8) := by decide

theorem test_and_disjoint :
    after (exec (.and 2 3) (setup [(2, 0xAA#8), (3, 0x55#8)] 0b11111111#8 State.reset))
      (fun t => (t.reg 2, t.sreg.toByte)) = some (0x00#8, 0b11100011#8) := by decide

theorem test_and_of_itself :
    after (exec (.and 5 5) (setup [(5, 0x5A#8)] 0b00100001#8 State.reset)) (fun t => (t.reg 5, t.sreg.toByte)) =
      some (0x5A#8, 0b00100001#8) := by decide

theorem test_andi_clears_V :
    after (exec (.andi 16 0xFF) (setup [(16, 0xFF#8)] 0b11111111#8 State.reset))
      (fun t => (t.reg 16, t.sreg.toByte)) = some (0xFF#8, 0b11110101#8) := by decide

theorem test_andi_keeps_C :
    after (exec (.andi 31 0xFF) (setup [(31, 0x7F#8)] 0b00011101#8 State.reset))
      (fun t => (t.reg 31, t.sreg.toByte)) = some (0x7F#8, 0b00000001#8) := by decide

theorem test_ldi_sets_no_flag :
    after (exec (.ldi 16 0) (setup [(16, 0xEE#8)] 0b01010101#8 State.reset))
      (fun t => (t.reg 16, t.sreg.toByte, t.pc)) = some (0x00#8, 0b01010101#8, 1) := by decide

theorem test_lds_top_of_memory :
    after (exec (.lds 31 0xFFFF) (withRam [(0xFFFF, 0xA5#8)] State.reset)) (fun t => (t.reg 31, t.pc)) =
      some (0xA5#8, 2) := by decide

theorem test_lds_from_a_register :
    after (exec (.lds 5 0x0010) (setup [(16, 0x77#8)] 0#8 State.reset)) (fun t => (t.reg 5, t.reg 16)) =
      some (0x77#8, 0x77#8) := by decide

theorem test_mov_copies :
    after (exec (.mov 16 0) (setup [(0, 0x11#8), (16, 0xEE#8)] 0b10101010#8 State.reset))
      (fun t => (t.reg 16, t.reg 0, t.sreg.toByte)) = some (0x11#8, 0x11#8, 0b10101010#8) := by decide

theorem test_movw_copies :
    after (exec (.movw 4 2) (setup [(3, 0x01#8), (2, 0x02#8), (5, 0xFF#8), (4, 0xFF#8)] 0#8 State.reset))
      (fun t => (t.reg 5, t.reg 4, t.reg 3, t.reg 2)) = some (0x01#8, 0x02#8, 0x01#8, 0x02#8) := by decide

theorem test_lsr_shifts_out_a_one :
    after (exec (.lsr 0) (setup [(0, 0x81#8)] 0b00000100#8 State.reset)) (fun t => (t.reg 0, t.sreg.toByte)) =
      some (0x40#8, 0b00011001#8) := by decide

theorem test_lsr_keeps_I_T_H :
    after (exec (.lsr 31) (setup [] 0b11111111#8 State.reset)) (fun t => (t.reg 31, t.sreg.toByte)) =
      some (0x00#8, 0b11100010#8) := by decide

theorem test_ldZ_over_Z :
    after (exec (.ldZ 31) (ldState 0x00 0x60)) (fun t => (t.z, t.sreg.toByte)) = some (0x1160#16, 0b01010101#8) := by
  decide

theorem test_ldZInc_carries :
    after (exec (.ldZInc 0) (withRam [(0xFF, 0x5A#8)] (ldState 0x00 0xFF))) (fun t => (t.reg 0, t.reg 31, t.reg 30)) =
      some (0x5A#8, 0x01#8, 0x00#8) := by decide

theorem test_ldZInc_stops :
    stop (exec (.ldZInc 30) (ldState 0x00 0x60)) = some .ldPostincIntoZ ∧
      stop (exec (.ldZInc 0) (ldState 0xFF 0xFF)) = some .zPointerOverflow := by decide

theorem test_ldZDec_reads_the_new_Z :
    after (exec (.ldZDec 3) (ldState 0x00 0x63)) (fun t => (t.reg 3, t.z, t.pc)) = some (0x33#8, 0x0062#16, 1) := by
  decide

theorem test_ldZDec_stops :
    stop (exec (.ldZDec 31) (ldState 0x00 0x60)) = some .ldPredecIntoZ ∧
      stop (exec (.ldZDec 0) (ldState 0x00 0x00)) = some .zPointerUnderflow := by decide

theorem test_lddZ_largest_displacement :
    after (exec (.lddZ 4 63) (ldState 0x00 0x25)) (fun t => (t.reg 4, t.z)) = some (0x55#8, 0x0025#16) := by decide

theorem test_lddZ_stops : stop (exec (.lddZ 0 1) (ldState 0xFF 0xFF)) = some .zDisplacementOverflow := by decide

/-- S6's `ld r1,Z` on a reduced core, which has `LD Rd,Z` (R11), although its word decodes as LDD (R73). -/
theorem test_step_ldZ_on_avrrc :
    after (step (onDevice reduced ((ldState 0x00 0x61).withFetchWord 16 0x8010))) (fun t => (t.reg 1, t.z)) =
      some (0x22#8, 0x0061#16) := by decide

/-- A fetched step from the state after reset: S6's `ldi r30,0x60`. -/
theorem test_step_ldi :
    after (step (State.reset.withFetchWord 16 0xE6E0)) (fun t => (t.reg 30, t.pc)) = some (0x60#8, 1) := by decide

/-- A fetched step of two words, its address word all zeros: register 0 stands there on the device of reset. -/
theorem test_step_lds :
    after (step ((State.reset.setReg 0 0x42#8).withFetchWord 16 0x9020)) (fun t => (t.reg 2, t.pc)) =
      some (0x42#8, 2) := by decide

/-! ### Witnesses of the statements' hypotheses -/

theorem witness_DecodeOfEncodeIsTheInstruction :
    (Instr.movw 30 0).wf = true ∧ (Instr.andi 16 255).wf = true ∧ (Instr.ldi 31 0).wf = true ∧
      (Instr.adiw 24 63).wf = true ∧ (Instr.adiw 30 0).wf = true ∧ (Instr.lddZ 31 0).wf = true ∧
      (∀ d, Instr.lddZ 31 0 ≠ .ldZ d) := by decide

theorem witness_EncodeOfDecodeIsTheWords :
    decode [0x91F0#16, 0xFFFF#16, 0x0000#16] = .ok (.lds 31 0xFFFF, [0x0000#16]) := rfl

theorem witness_DecodedInstructionsAreWellFormed : decode [0x8001#16] = .ok (.lddZ 0 1, []) := rfl

theorem witness_RowsOverlapOnlyInLdZ :
    ∃ r ∈ opcodeMap, ∃ r' ∈ opcodeMap, r.matchesWord 0x81F0#16 = true ∧ r'.matchesWord 0x81F0#16 = true ∧ r ≠ r' ∧
      0x81F0#16 &&& 0xFE0F#16 = 0x8000#16 := by decide

theorem witness_FirstWordDecidesLength :
    (decode [0x91F0#16, 0x0C12#16] = .ok (.lds 31 0x0C12, []) ∧ 0x91F0#16 &&& 0xFE0F#16 = 0x9000#16) ∧
      (decode [0x91F1#16, 0x0C12#16] = .ok (.ldZInc 31, [0x0C12#16]) ∧ 0x91F1#16 &&& 0xFE0F#16 ≠ 0x9000#16) :=
  ⟨⟨rfl, by decide⟩, rfl, by decide⟩

/-- A one-word instruction at the last word of program memory. -/
def lastWord (w : Nat) : State := (atPc 65535 State.reset).withFetchWord 16 w

theorem witness_StepRunsTheDecodedInstruction :
    decode [(lastWord 0x9406).progWord 65535, (lastWord 0x9406).progWord 65536] = .ok (.lsr 0, [0x0000#16]) ∧
      65535 + (Instr.lsr 0).words ≤ (lastWord 0x9406).params.flashWords ∧
      admitted (lastWord 0x9406).params (Instr.lsr 0).mnemonic = true :=
  ⟨rfl, by decide, by decide⟩

theorem witness_ProgramReadsStopAtFlashWords :
    65535 < State.reset.params.flashWords ∧ State.reset.params.flashWords ≤ 65536 ∧
      State.reset.params.flashWords ≤ (atPc 65536 State.reset).pc ∧
      ((lastWord 0x9000).pc + 1 = (lastWord 0x9000).params.flashWords ∧
        (lastWord 0x9000).progWord (lastWord 0x9000).pc &&& 0xFE0F#16 = 0x9000#16 ∧
        available (lastWord 0x9000).params .lds = true) ∧
      (0 + 1 < State.reset.params.flashWords ∧
        (State.reset.withFetchWord 16 0x91F0).progWord 0 &&& 0xFE0F#16 = 0x9000#16) := by decide

theorem witness_UnmatchedAndUnavailableWordsAreRefused :
    ((State.reset.pc < State.reset.params.flashWords) ∧
      ∀ row ∈ opcodeMap, State.reset.progWord State.reset.pc &&& row.mask = row.pattern →
        admitted State.reset.params row.name = false) ∧
    (∀ row ∈ opcodeMap,
      (onDevice bare (State.reset.withFetchWord 16 0x9406)).progWord 0 &&& row.mask = row.pattern →
        admitted bare row.name = false) ∧
    ((onDevice bare (State.reset.withFetchWord 16 0x0180)).pc < bare.flashWords ∧
      ⟨.movw, 0xFF00#16, 0x0100#16, 1⟩ ∈ opcodeMap ∧
      (onDevice bare (State.reset.withFetchWord 16 0x0180)).progWord 0 &&& 0xFF00#16 = 0x0100#16 ∧
      Mnemonic.movw ≠ .lddZ ∧ admitted bare .movw = true ∧ available bare .movw = false) ∧
    ((onDevice reduced (State.reset.withFetchWord 16 0x8001)).progWord 0 &&& 0xD208#16 = 0x8000#16 ∧
      (onDevice reduced (State.reset.withFetchWord 16 0x8001)).progWord 0 &&& 0xFE0F#16 ≠ 0x8000#16 ∧
      admitted reduced .lddZ = true ∧ available reduced .lddZ = false) := by decide

theorem witness_ChecksAreMadeInOrder :
    ((Instr.ldZInc 31).wf = true ∧ available sparse (availabilityRow (.ldZInc 31)) = true ∧
      operandRefusal (onDevice sparse State.reset) (.ldZInc 31) = some .ldPostincIntoZ) ∧
    ((Instr.lds 0 0x0200).wf = true ∧ operandRefusal (onDevice sparse State.reset) (.lds 0 0x0200) = none ∧
      loadAddress (onDevice sparse State.reset) (.lds 0 0x0200) = some 0x0200#16 ∧
      (onDevice sparse State.reset).target 0x0200#16 = .unmapped) ∧
    (loadAddress (onDevice sparse State.reset) (.lds 0 0x01FF) = some 0x01FF#16 ∧
      (onDevice sparse State.reset).target 0x01FF#16 ≠ .unmapped) := by decide

theorem witness_StepRefusalsAreTheListedOnes :
    step State.reset = .refused .noRuleForWord ∧
      step (State.reset.withFetchWord 16 0x91F2) = .refused .ldPredecIntoZ := ⟨rfl, rfl⟩

theorem witness_AvailabilityFixedBySpec :
    reduced.core = .avrrc ∧ Mnemonic.lds ∈ [Mnemonic.adiw, .lds, .movw] ∧
      Mnemonic.ldZDec ∈ [Mnemonic.add, .and, .andi, .ldi, .mov, .lsr, .ldZ, .ldZInc, .ldZDec] ∧
      available reduced (availabilityRow (.adiw 24 0)) = false ∧ ∀ d, Instr.adiw 24 0 ≠ .lddZ d 0 := by decide

/-- For the statements on ADIW's result and on its flags, both ends of the pairs. -/
theorem witness_Adiw :
    ((24 : Reg) ∈ [(24 : Reg), 26, 28, 30] ∧ (25 : Reg).val = (24 : Reg).val + 1) ∧
      ((30 : Reg) ∈ [(24 : Reg), 26, 28, 30] ∧ (31 : Reg).val = (30 : Reg).val + 1) ∧
      available State.reset.params .adiw = true ∧ 0x96FF#16 &&& 0xFF00#16 = 0x9600#16 := by decide

theorem witness_AdiwIsRefusedOnAvrrc :
    ((onDevice reduced (State.reset.withFetchWord 16 0x96FF)).params.core = .avrrc ∧
      (onDevice reduced (State.reset.withFetchWord 16 0x96FF)).pc < reduced.flashWords ∧
      (onDevice reduced (State.reset.withFetchWord 16 0x96FF)).progWord 0 &&& 0xFF00#16 = 0x9600#16) ∧
    available { Params.classic with hasAdiw := false } .adiw = false := by decide

/-- The words of each encoding clause: the first and the last of the row. -/
theorem witness_encoding_clauses :
    (0x0C00#16 &&& 0xFC00#16 = 0x0C00#16 ∧ 0x0FFF#16 &&& 0xFC00#16 = 0x0C00#16) ∧
    (0x2000#16 &&& 0xFC00#16 = 0x2000#16 ∧ 0x23FF#16 &&& 0xFC00#16 = 0x2000#16) ∧
    (0x2C00#16 &&& 0xFC00#16 = 0x2C00#16 ∧ 0x2FFF#16 &&& 0xFC00#16 = 0x2C00#16) ∧
    (0x7000#16 &&& 0xF000#16 = 0x7000#16 ∧ 0x7FFF#16 &&& 0xF000#16 = 0x7000#16) ∧
    (0xE000#16 &&& 0xF000#16 = 0xE000#16 ∧ 0xEFFF#16 &&& 0xF000#16 = 0xE000#16) ∧
    (0x0100#16 &&& 0xFF00#16 = 0x0100#16 ∧ 0x01FF#16 &&& 0xFF00#16 = 0x0100#16) ∧
    (0x9406#16 &&& 0xFE0F#16 = 0x9406#16 ∧ 0x95F6#16 &&& 0xFE0F#16 = 0x9406#16) ∧
    (0x8000#16 &&& 0xFE0F#16 = 0x8000#16 ∧ 0x81F0#16 &&& 0xFE0F#16 = 0x8000#16) ∧
    (0x9001#16 &&& 0xFE0F#16 = 0x9001#16 ∧ 0x91F1#16 &&& 0xFE0F#16 = 0x9001#16) ∧
    (0x9002#16 &&& 0xFE0F#16 = 0x9002#16 ∧ 0x91F2#16 &&& 0xFE0F#16 = 0x9002#16) ∧
    (0x9000#16 &&& 0xFE0F#16 = 0x9000#16 ∧ 0x91F0#16 &&& 0xFE0F#16 = 0x9000#16) ∧
    (0xADF7#16 &&& 0xD208#16 = 0x8000#16 ∧ 0xADF7#16 &&& 0xFE0F#16 ≠ 0x8000#16 ∧
      0x8001#16 &&& 0xD208#16 = 0x8000#16 ∧ 0x8001#16 &&& 0xFE0F#16 ≠ 0x8000#16) := by decide

/-- For the statements on ANDI's and LDI's results, both ends of the registers. -/
theorem witness_AndiResultAndFlags_LdiResult : 16 ≤ (16 : Reg).val ∧ 16 ≤ (31 : Reg).val := by decide

theorem witness_MovwResult :
    ((30 : Reg).val % 2 = 0 ∧ (0 : Reg).val % 2 = 0 ∧ (31 : Reg).val = (30 : Reg).val + 1 ∧
      (1 : Reg).val = (0 : Reg).val + 1) ∧ available State.reset.params .movw = true := by decide

theorem witness_MovwIsRefusedWhereMissing :
    bare.hasMovw = false ∧ (onDevice bare (State.reset.withFetchWord 16 0x0180)).pc < bare.flashWords ∧
      (onDevice bare (State.reset.withFetchWord 16 0x0180)).progWord 0 &&& 0xFF00#16 = 0x0100#16 := by decide

theorem witness_UnencodableOperandsAreRefused :
    (Instr.andi 15 0).wf = false ∧
      available State.reset.params (Instr.andi 15 0).mnemonic = true :=
  ⟨by decide, by decide⟩

/-- The regions of the two devices at their bounds. -/
theorem witness_DataReadsByRegion_DataWritesByRegion :
    (State.reset.target 0x0060#16 = .sram ∧ State.reset.target 0xFFFF#16 = .sram ∧ Memory.wf State.reset.data) ∧
    (State.reset.target 0x0000#16 = .reg 0 ∧ State.reset.target 0x001F#16 = .reg 31) ∧
    (State.reset.target 0x0020#16 = .io 0 ∧ State.reset.target 0x005F#16 = .io 63) ∧
    ((onDevice sparse State.reset).target 0x00FF#16 = .unmapped ∧
      (onDevice sparse State.reset).target 0x0200#16 = .unmapped) := by decide

theorem witness_LdZResult :
    State.reset.target (State.reset.reg 31 ++ State.reset.reg 30) ≠ .unmapped ∧
      (onDevice sparse State.reset).target (State.reset.reg 31 ++ State.reset.reg 30) = .unmapped := by decide

theorem witness_LdZPostIncrementResult :
    ((29 : Reg) ≠ 30 ∧ (29 : Reg) ≠ 31) ∧
    (0xFFFF#16 = (ldState 0xFF 0xFF).reg 31 ++ (ldState 0xFF 0xFF).reg 30) ∧
    (0xFFFE#16 = (ldState 0xFF 0xFE).reg 31 ++ (ldState 0xFF 0xFE).reg 30 ∧ 0xFFFE#16 ≠ 0xFFFF#16 ∧
      (onDevice sparse (ldState 0xFF 0xFE)).target 0xFFFE#16 = .unmapped ∧
      (ldState 0xFF 0xFE).target 0xFFFE#16 ≠ .unmapped) := by decide

theorem witness_LdZPreDecrementResult :
    ((29 : Reg) ≠ 30 ∧ (29 : Reg) ≠ 31) ∧
    (0x0000#16 = (ldState 0x00 0x00).reg 31 ++ (ldState 0x00 0x00).reg 30) ∧
    (0x0001#16 = (ldState 0x00 0x01).reg 31 ++ (ldState 0x00 0x01).reg 30 ∧ 0x0001#16 ≠ 0x0000#16 ∧
      (onDevice sparse (ldState 0x00 0x01)).target (0x0001#16 - 1) = .unmapped ∧
      (ldState 0x00 0x01).target (0x0001#16 - 1) ≠ .unmapped) := by decide

theorem witness_LddZResult :
    reduced.core = .avrrc ∧ (1 : BitVec 6) ≠ 0 ∧
    (available State.reset.params .lddZ = true ∧ 0xFFFF < (0xFFFF#16).toNat + (1#6).toNat) ∧
    ((0xFFFF#16).toNat = (0xFFC0#16).toNat + (63#6).toNat ∧ State.reset.target 0xFFFF#16 ≠ .unmapped ∧
      (onDevice sparse State.reset).target 0xFFFF#16 = .unmapped) := by decide

theorem witness_LdsResult :
    available State.reset.params .lds = true ∧ State.reset.target 0x0000#16 ≠ .unmapped ∧
      State.reset.target 0xFFFF#16 ≠ .unmapped ∧ available sparse .lds = true ∧
      (onDevice sparse State.reset).target 0x00FF#16 = .unmapped := by decide

theorem witness_MappedPairLiesLowByteFirst :
    (31 : Reg).val = (30 : Reg).val + 1 ∧ (0x001F#16).toNat = (0x001E#16).toNat + 1 ∧
      State.reset.target 0x001E#16 = .reg 30 ∧ State.reset.target 0x001F#16 = .reg 31 := by decide

theorem witness_LdsFromAMappedRegisterIsAMove :
    available State.reset.params .lds = true ∧ State.reset.target 0x001F#16 = .reg 31 := by decide

theorem witness_DataReadsHaveNoSideEffect :
    memRead State.reset 0x001F#16 = .ok (0x00#8, State.reset) ∧ (∀ j, State.reset.target 0x001F#16 ≠ .io j) ∧
      memRead State.reset 0x0020#16 = .ok (Config.drawByte 0, State.reset.countDraw) :=
  ⟨rfl, fun _ h => (by cases h), rfl⟩

/-- For the statements on what every completed instruction does: ones that complete, of one word and of two, that write
every flag, some and none. -/
theorem witness_completed_instructions :
    (∃ t, exec (.lds 0 0x0060) State.reset = .next t) ∧ (∃ t, exec (.add 0 31) State.reset = .next t) ∧
      (∃ t, exec (.and 0 31) State.reset = .next t) ∧ (∃ t, exec (.andi 16 0) State.reset = .next t) ∧
      (∃ t, exec (.lsr 31) State.reset = .next t) ∧ (∃ t, exec (.mov 0 31) State.reset = .next t) :=
  ⟨⟨_, rfl⟩, ⟨_, rfl⟩, ⟨_, rfl⟩, ⟨_, rfl⟩, ⟨_, rfl⟩, ⟨_, rfl⟩⟩

theorem witness_NoInstructionReadsAFlag :
    (∃ t, exec (.add 0 31) State.reset = .next t) ∧ exec (.ldZDec 30) State.reset = .refused .ldPredecIntoZ :=
  ⟨⟨_, rfl⟩, rfl⟩

theorem witness_RegistersReadAndWrittenAreTheTable :
    (∀ j ∈ regsRead (.add 1 2), ({ State.reset with regs := Vector.replicate 32 0x00#8 |>.set 3 0x77#8 } : State).reg j =
      State.reset.reg j) ∧
    loadAddress State.reset (.add 1 2) = none ∧ (∃ t, exec (.add 1 2) State.reset = .next t) :=
  ⟨by decide, rfl, _, rfl⟩

/-- For the statements on runs of any length, and on a step from a state in the invariant. -/
theorem witness_runs :
    (State.reset.withFetchWord 16 0xEFFF).Inv ∧
      (∃ t, step (State.reset.withFetchWord 16 0xEFFF) = .next t) ∧
      (∃ t, runSteps 1 (State.reset.withFetchWord 16 0xEFFF) = .next t) :=
  ⟨by decide, ⟨_, rfl⟩, ⟨_, rfl⟩⟩

theorem witness_NoRegisterIsHardwired : (31 : Reg) ≠ 0 ∧ (30 : Reg) ≠ 31 := by decide

theorem witness_PairIsTwoRegisters :
    (1 : Reg).val = (0 : Reg).val + 1 ∧ (31 : Reg).val = (30 : Reg).val + 1 := by decide

theorem witness_RunEndsWhenEndPcIsReached :
    (atPc 65536 State.reset).IsFinal ∧ runToEnd 0 (atPc 65536 State.reset) = .final (atPc 65536 State.reset) ∧
      (¬ State.reset.IsFinal ∧ step State.reset = .refused .noRuleForWord) ∧
      (¬ (lastWord 0xE000).IsFinal ∧ ∃ t, step (lastWord 0xE000) = .next t) :=
  ⟨by decide, rfl, ⟨by decide, rfl⟩, by decide, _, rfl⟩

/-- A fragment of two instructions and three words: `ldi r31,255`, then `lds r2,0xFF00`. -/
def fragment : List Instr := [.ldi 31 255, .lds 2 0xFF00]

/-- The fragment placed at the reset address, on a device whose run ends after it. -/
def fragmentState : State :=
  { State.reset with
    prog := [(0, 0xEFFF#16), (1, 0x9020#16), (2, 0xFF00#16)],
    params := { Params.classic with endPc := 3 } }

theorem witness_FragmentRunsAsItsInstructions :
    (∀ i ∈ fragment, i.wf = true ∧ admitted fragmentState.params i.mnemonic = true) ∧
      (∀ (n : Nat) (w : Word), (fragment.flatMap encode)[n]? = some w → fragmentState.progWord (fragmentState.pc + n) = w) ∧
      fragmentState.params.endPc = fragmentState.pc + (fragment.flatMap encode).length ∧
      fragmentState.params.endPc ≤ fragmentState.params.flashWords := by
  refine ⟨by decide, fun n w h => ?_, by decide, by decide⟩
  have hn : n < 3 := (List.getElem?_eq_some_iff.1 h).1
  have hall : ∀ k : Fin 3, (fragment.flatMap encode)[k.val]? = some (fragmentState.progWord (fragmentState.pc + k.val)) := by
    decide
  exact Option.some.inj ((hall ⟨n, hn⟩).symm.trans h)

end Sys2Proof.Tests
end

/-! PROOFS. The statements of spec/00_scope.md: what a step keeps, what the fetch takes from program memory, and the
parameters of the device. -/

namespace Sys2Proof

/-! ### What the decoder takes from a list of words -/

theorem Instr.words_eq (i : Instr) : i.words = 1 ∨ i.words = 2 := by cases i <;> simp [Instr.words]

theorem rowOf_words {w : Word} {row : OpcodeRow} (h : rowOf w = some row) : row.words = 1 ∨ row.words = 2 := by
  have hall : ∀ r ∈ opcodeMap, r.words = 1 ∨ r.words = 2 := by decide
  exact hall row (rowOf_cases h).1

/-- The operands a row takes from its words do not change its length. -/
theorem operandsOf_words {row : OpcodeRow} (h : row ∈ opcodeMap) (w w2 : Word) :
    (operandsOf row.name w w2).words = row.words := by
  simp only [opcodeMap] at h
  fin_cases h <;> rfl

/-- A first word of a row, with as many words after it as the row's length asks for, decodes to the row's operands. -/
theorem decode_of_row {w : Word} {ws : List Word} {row : OpcodeRow} (hrow : rowOf w = some row)
    (hlen : ws.length + 1 = row.words) (rest : List Word) :
    decode (w :: ws ++ rest) = .ok (operandsOf row.name w (ws.headD 0), rest) := by
  match ws with
  | [] => simp [decode, hrow, ← hlen]
  | [w2] => simp [decode, hrow, ← hlen]
  | _ :: _ :: _ =>
    have := rowOf_words hrow
    simp only [List.length_cons] at hlen
    omega

/-- Decoding takes as many words as the instruction is long, and the words after those have no part in it (R60,
R62). -/
theorem decode_split {ws rest : List Word} {i : Instr} (h : decode ws = .ok (i, rest)) :
    ∃ own, ws = own ++ rest ∧ own.length = i.words ∧ ∀ rest', decode (own ++ rest') = .ok (i, rest') := by
  rcases decode_cases h with ⟨w, row, rfl, hrow, h1, rfl⟩ | ⟨w, w2, row, rfl, hrow, h1, rfl⟩
  all_goals rw [operandsOf_words (rowOf_cases hrow).1]
  · exact ⟨[w], rfl, h1.symm, decode_of_row (ws := []) hrow h1.symm⟩
  · have h2 : 2 = row.words := ((rowOf_words hrow).resolve_left h1).symm
    exact ⟨[w, w2], rfl, h2, decode_of_row (ws := [w2]) hrow h2⟩

/-! ### Decoding the words of an instruction -/

@[simp] theorem reg5_bits5 (d : Reg) : reg5 (bits5 d) = d := by
  refine Fin.ext ?_
  simp [reg5, bits5]

theorem reg16_ofNat {d : Reg} (h : d.isUpper = true) : reg16 (BitVec.ofNat 4 (d.val - 16)) = d := by
  simp only [Reg.isUpper, decide_eq_true_eq] at h
  refine Fin.ext ?_
  simp only [reg16, BitVec.toNat_ofNat]
  omega

theorem regEven_ofNat {d : Reg} (h : d.isEven = true) : regEven (BitVec.ofNat 4 (d.val / 2)) = d := by
  simp only [Reg.isEven, decide_eq_true_eq] at h
  refine Fin.ext ?_
  simp only [regEven, BitVec.toNat_ofNat]
  omega

theorem regPair24_ofNat {d : Reg} (h : d.isUpperPair = true) :
    regPair24 (BitVec.ofNat 2 ((d.val - 24) / 2)) = d := by
  simp only [Reg.isUpperPair, Bool.decide_and, Bool.and_eq_true, decide_eq_true_eq] at h
  refine Fin.ext ?_
  simp only [regPair24, BitVec.toNat_ofNat]
  omega

section
open BitVec

/-- The operands a row takes from the words of a well-formed instruction of its own are that instruction's: each field
is a slice, or adjacent slices put together, of the pieces the picture is put together from. -/
theorem operandsOf_encode {i : Instr} (hwf : i.wf = true) {w : Word} {ws : List Word} (he : encode i = w :: ws) :
    operandsOf i.mnemonic w (ws.headD 0) = i := by
  cases i <;> obtain ⟨rfl, rfl⟩ := List.cons.inj he
  all_goals
    simp (disch := decide) only [operandsOf, Instr.mnemonic, List.headD_cons,
      formatRdRr, formatRdK8, formatRd5, fieldD5, fieldR5, fieldD4, fieldR4, fieldD2, fieldK8, fieldK6, fieldQ6,
      extractLsb'_append_eq_of_le, extractLsb'_append_eq_of_add_le, extractLsb'_append_extractLsb'_eq_extractLsb',
      Nat.reduceSub, extractLsb'_eq_self, reg5_bits5]
  case movw d r =>
    obtain ⟨hd, hr⟩ := Bool.and_eq_true_iff.1 hwf
    rw [regEven_ofNat hd, regEven_ofNat hr]
  case andi d K => rw [reg16_ofNat hwf]
  case ldi d K => rw [reg16_ofNat hwf]
  case adiw d K => rw [regPair24_ofNat hwf]

end

/-- The words of every instruction agree with the opcode map. -/
theorem encodedWord (i : Instr) : Laws.EncodedWord.Statement i :=
  match i with
  | .movw d r => Laws.EncodedWord.movw d r
  | .add d r => Laws.EncodedWord.add d r
  | .and d r => Laws.EncodedWord.and d r
  | .mov d r => Laws.EncodedWord.mov d r
  | .andi d K => Laws.EncodedWord.andi d K
  | .lds d k => Laws.EncodedWord.lds d k
  | .adiw d K => Laws.EncodedWord.adiw d K
  | .ldi d K => Laws.EncodedWord.ldi d K
  | .ldZ d => Laws.EncodedWord.ldZ d
  | .ldZInc d => Laws.EncodedWord.ldZInc d
  | .ldZDec d => Laws.EncodedWord.ldZDec d
  | .lddZ d q => Laws.EncodedWord.lddZ d q
  | .lsr d => Laws.EncodedWord.lsr d

@[simp] theorem length_encode (i : Instr) : (encode i).length = i.words := (encodedWord i).1

/-- Decoding the words of a well-formed instruction, but for those of `LD Rd,Z`, gives it back (R63 to R73). -/
theorem decode_encode {i : Instr} (hwf : i.wf = true) (hz : i.mnemonic ≠ .ldZ) (rest : List Word) :
    decode (encode i ++ rest) = .ok (i, rest) := by
  obtain ⟨hlen, row, hmem, hname, hwords, w, ws, he, hw⟩ := encodedWord i
  have hrow : rowOf w = some row := rowOf_eq_some hmem hw (hname ▸ hz)
  rw [he, List.length_cons, ← hwords] at hlen
  rw [he, decode_of_row hrow hlen, hname, operandsOf_encode hwf he]

/-- What the words of an instruction are decoded as: those of `LD Rd,Z` as LDD with `q = 0` (R73). -/
def Instr.decoded : Instr → Instr
  | .ldZ d => .lddZ d 0
  | i => i

/-- The words of `LD Rd,Z` are those of `LDD Rd,Z+0` (R73, R104). -/
theorem encode_ldZ : ∀ d : Reg, encode (.ldZ d) = encode (.lddZ d 0) := by decide

/-- Decoding the words of any well-formed instruction, `LD Rd,Z` included. -/
theorem decode_encode_decoded {i : Instr} (hwf : i.wf = true) (rest : List Word) :
    decode (encode i ++ rest) = .ok (i.decoded, rest) := by
  cases i
  case ldZ d =>
    rw [encode_ldZ]
    exact decode_encode (i := .lddZ d 0) rfl (by simp [Instr.mnemonic]) rest
  all_goals exact decode_encode hwf (by simp [Instr.mnemonic]) rest

end Sys2Proof

namespace Sys2Proof.Machine

/-! ### The fetch -/

theorem fetchInstr_of_decode {s : State} {i : Instr} {rest : List Word} (hd : decode (fetchWords s) = .ok (i, rest))
    (ha : admitted s.params i.mnemonic = true) : fetchInstr s = .ok i := by
  simp [fetchInstr, hd, ha]

/-- A fetched instruction lies inside program memory (R44). -/
theorem pc_add_words_le_of_fetch {s : State} {i : Instr} (h : fetchInstr s = .ok i) :
    s.pc + i.words ≤ s.params.flashWords := by
  obtain ⟨rest, hd, -⟩ := fetchInstr_ok h
  obtain ⟨own, hws, hlen, -⟩ := decode_split hd
  have hle : i.words ≤ (fetchWords s).length := by simp [hws, hlen]
  have hwords := i.words_eq
  rcases fetchWords_cases s with ⟨-, hw⟩ | ⟨hpc, -, hw⟩ | ⟨hpc, hw⟩
  all_goals
    simp only [hw, List.length_cons, List.length_nil] at hle
    omega

/-- The fetch finds the instruction the words at `pc` decode to, when it lies inside program memory and its row is
admitted. -/
theorem fetchInstr_of_progWords {s : State} {i : Instr} {rest : List Word}
    (hd : decode [s.progWord s.pc, s.progWord (s.pc + 1)] = .ok (i, rest))
    (hin : s.pc + i.words ≤ s.params.flashWords) (ha : admitted s.params i.mnemonic = true) :
    fetchInstr s = .ok i := by
  have hwords := i.words_eq
  rcases fetchWords_cases s with ⟨hpc, -⟩ | ⟨-, hpc, hw⟩ | ⟨-, hw⟩
  · omega
  · obtain ⟨own, hws, hlen, hown⟩ := decode_split hd
    obtain ⟨w, rfl⟩ := List.length_eq_one_iff.1 (show own.length = 1 by omega)
    obtain ⟨rfl, -⟩ := List.cons.inj hws
    have hd1 : decode [s.progWord s.pc] = .ok (i, []) := hown []
    exact fetchInstr_of_decode (hw ▸ hd1) ha
  · exact fetchInstr_of_decode (hw ▸ hd) ha

/-- Settles O7: the fetch finds the instruction, and a step runs what the fetch finds. -/
theorem stepRunsTheDecodedInstruction : Obligations.StepRunsTheDecodedInstruction := by
  intro s i rest hd hin ha
  exact step_of_fetch (fetchInstr_of_progWords hd hin ha)

/-! ### What every completed instruction does to the state outside the registers and the arithmetic flags -/

/-- `t` is `s` past an instruction of `n` words: `pc` is `n` words on, and both memories, the device and the flags `I`
and `T` are as they were. The registers, the other flags and the count of drawn bytes are free. -/
structure State.Past (s : State) (n : Nat) (t : State) : Prop where
  pc : t.pc = s.pc + n
  data : t.data = s.data
  prog : t.prog = s.prog
  params : t.params = s.params
  I : t.sreg.I = s.sreg.I
  T : t.sreg.T = s.sreg.T

theorem State.Past.of_next {s t u : State} {n : Nat} (h : (.next u : Result) = .next t) (hu : s.Past n u) :
    s.Past n t := by
  injection h with h
  exact h ▸ hu

/-- A load is past its words when its finishing update is, from whatever state the read leaves. -/
theorem State.Past.of_withByteAt {a : Addr} {s t : State} {n : Nat} {finish : Byte → State → State}
    (h : withByteAt a s finish = .next t) (hf : ∀ v u, State.Past u n (finish v u)) : s.Past n t := by
  obtain ⟨v, u, hread, rfl⟩ := withByteAt_next h
  have hu := hf v u
  rcases memRead_state hread with rfl | rfl
  exacts [hu, ⟨hu.pc, hu.data, hu.prog, hu.params, hu.I, hu.T⟩]

/-- Everything a completed instruction does to `pc`, the memories, the device, `I` and `T`: it moves past its own
words, and nothing else. -/
theorem exec_past {i : Instr} {s t : State} (h : exec i s = .next t) : s.Past i.words t := by
  cases i
  case movw d r =>
    obtain ⟨-, h⟩ := requireAvailable_next h
    obtain ⟨-, h⟩ := requireOperand_next h
    exact .of_next h ⟨rfl, rfl, rfl, rfl, rfl, rfl⟩
  case adiw d K =>
    obtain ⟨-, h⟩ := requireAvailable_next h
    obtain ⟨-, h⟩ := requireOperand_next h
    exact .of_next h ⟨rfl, rfl, rfl, rfl, rfl, rfl⟩
  case andi d K => exact .of_next (requireOperand_next h).2 ⟨rfl, rfl, rfl, rfl, rfl, rfl⟩
  case ldi d K => exact .of_next (requireOperand_next h).2 ⟨rfl, rfl, rfl, rfl, rfl, rfl⟩
  case lds d k =>
    exact .of_withByteAt (requireAvailable_next h).2 fun _ _ => ⟨rfl, rfl, rfl, rfl, rfl, rfl⟩
  case ldZ d => exact .of_withByteAt h fun _ _ => ⟨rfl, rfl, rfl, rfl, rfl, rfl⟩
  case ldZInc d =>
    simp only [exec, execLdZInc] at h
    split_ifs at h
    exact .of_withByteAt h fun _ _ => ⟨rfl, rfl, rfl, rfl, rfl, rfl⟩
  case ldZDec d =>
    simp only [exec, execLdZDec] at h
    split_ifs at h
    exact .of_withByteAt h fun _ _ => ⟨rfl, rfl, rfl, rfl, rfl, rfl⟩
  case lddZ d q =>
    obtain ⟨-, h⟩ := requireAvailable_next h
    split_ifs at h
    exact .of_withByteAt h fun _ _ => ⟨rfl, rfl, rfl, rfl, rfl, rfl⟩
  all_goals exact .of_next h ⟨rfl, rfl, rfl, rfl, rfl, rfl⟩

/-- Settles O51: both memories are empty after reset, and the classic device is lawful. -/
theorem invariantHoldsAtReset : Obligations.InvariantHoldsAtReset := by
  have hparams : Params.classic.Wf := by decide
  exact ⟨reset_data_wf, by simp [State.reset], reset_prog_wf, by simp [State.reset], hparams, Nat.zero_le _⟩

/-- Settles O52: a completed instruction writes neither memory and no parameter, and it ends inside program memory
because the fetch found all its words there. -/
theorem stepKeepsTheInvariant : Obligations.StepKeepsTheInvariant := by
  intro s t ⟨hdata, hdataIn, hprog, hprogIn, hparams, _⟩ hstep
  obtain ⟨i, hfetch, hexec⟩ := step_next hstep
  have hpast := exec_past hexec
  have hpc : t.pc ≤ t.params.flashWords := by
    rw [hpast.pc, hpast.params]
    exact pc_add_words_le_of_fetch hfetch
  refine ⟨?_, ?_, ?_, ?_, ?_, hpc⟩
  · rwa [hpast.data]
  · rwa [hpast.data]
  · rwa [hpast.prog]
  · rwa [hpast.prog, hpast.params]
  · rwa [hpast.params]

/-! ### `AVAILABLE` -/

/-- An instruction the device lacks is refused, whatever its operands (R11, D1). -/
theorem exec_of_unavailable {i : Instr} {s : State} (h : available s.params (availabilityRow i) = false) :
    exec i s = .refused .instructionNotAvailable := by
  cases i
  case movw d r => exact requireAvailable_of_false _ h
  case lds d k => exact requireAvailable_of_false _ h
  case adiw d K => exact requireAvailable_of_false _ h
  case lddZ d q => exact requireAvailable_of_false _ h
  all_goals simp [availabilityRow, available] at h

/-- A device, of another core than AVRrc, that answers `b` for every row the spec leaves open. -/
def answeringDevice (b : Bool) : Params := { Params.classic with hasAdiw := b, hasLds := b, hasMovw := b }

theorem available_answeringDevice {m : Mnemonic} (h : m ∈ [Mnemonic.adiw, .lds, .movw]) (b : Bool) :
    available (answeringDevice b) m = b := by
  fin_cases h
  · exact Bool.and_true b
  · rfl
  · rfl

/-- Settles O13, entry by entry. -/
theorem availabilityFixedBySpec : Obligations.AvailabilityFixedBySpec := by
  refine ⟨fun p hp => ?_, fun p m hm => ?_, fun m b hm => ?_, fun i s h => exec_of_unavailable h, fun i hi => ?_⟩
  · simp [available, hp]
  · fin_cases hm <;> rfl
  · exact ⟨answeringDevice b, by simp [answeringDevice, Params.classic], available_answeringDevice hm b⟩
  · cases i
    case lddZ d q =>
      have hq : q ≠ 0 := by rintro rfl; exact hi d rfl
      exact lddRow_of_ne hq
    all_goals rfl

/-! ### `DATA_MAP` -/

/-- A kind of range that puts the target at its first address. No register is numbered 32, so a range of registers
from there on leaves its first address unmapped. -/
def kindOf : Target → MapKind
  | .reg i => .regs i
  | .io j => .io j
  | .sram => .sram
  | .unmapped => .regs 32

@[simp] theorem target_kindOf (t : Target) : MapKind.target (kindOf t) 0 = t := by
  cases t <;> simp [kindOf, MapKind.target]

/-- The range of the one address `a`, holding what `f` puts there. -/
def pointRange (f : Addr → Target) (a : Addr) : MapRange := ⟨a.toNat, a.toNat, kindOf (f a)⟩

theorem dataTarget_map_pointRange (f : Addr → Target) {l : List Addr} {a : Addr} (h : a ∈ l) :
    dataTarget (l.map (pointRange f)) a = f a := by
  induction l with
  | nil => cases h
  | cons b l ih =>
    by_cases hab : a = b
    · subst hab
      simp [dataTarget, pointRange]
    · have hout : ¬(b.toNat ≤ a.toNat ∧ a.toNat ≤ b.toNat) := fun hle =>
        hab (BitVec.eq_of_toNat_eq (Nat.le_antisymm hle.2 hle.1))
      rw [List.map_cons, dataTarget, pointRange, if_neg hout]
      exact ih (List.mem_of_ne_of_mem hab h)

/-- Settles O31: one range for each address. -/
theorem everyDataMapIsAListOfRanges : Obligations.EveryDataMapIsAListOfRanges := by
  intro f
  refine ⟨((List.finRange (2 ^ 16)).map BitVec.ofFin).map (pointRange f), fun a => dataTarget_map_pointRange f ?_⟩
  exact List.mem_map.2 ⟨a.toFin, List.mem_finRange _, rfl⟩

/-! ### A fragment placed in program memory -/

/-- What the words of an instruction are decoded as does the same (R104). -/
theorem exec_decoded (i : Instr) (s : State) : exec i.decoded s = exec i s := by
  cases i
  case ldZ d =>
    have hz : zDisplaced s 0 = s.z := BitVec.add_zero s.z
    have hle : zDisplacementLeaves s 0 = false := (zDisplacementLeaves_eq_false s 0).2 (Nat.le_of_lt_succ s.z.isLt)
    show execLddZ d 0 s = execLdZ d s
    rw [execLddZ, lddRow_zero, requireAvailable_of_true _ rfl, hle, hz]
    rfl
  all_goals rfl

/-- Program memory holds the words `ws` from `pc` on. -/
def State.Holds (s : State) (ws : List Word) : Prop :=
  ∀ (n : Nat) (w : Word), ws[n]? = some w → s.progWord (s.pc + n) = w

theorem State.Holds.left {s : State} {ws ws' : List Word} (h : s.Holds (ws ++ ws')) : s.Holds ws := fun n w hn =>
  h n w (by rw [List.getElem?_append_left (List.getElem?_eq_some_iff.1 hn).1, hn])

/-- Past the words `ws`, program memory holds what followed them. -/
theorem State.Holds.past {s t : State} {ws ws' : List Word} (h : s.Holds (ws ++ ws')) (ht : s.Past ws.length t) :
    t.Holds ws' := by
  intro n w hn
  have hn' : (ws ++ ws')[ws.length + n]? = some w := by
    rw [List.getElem?_append_right (Nat.le_add_right ..), Nat.add_sub_cancel_left, hn]
  rw [ht.pc, State.progWord, ht.prog, Nat.add_assoc]
  exact h _ w hn'

/-- The two words at `pc` begin with those of an instruction placed there. -/
theorem progWords_of_holds_encode {s : State} {i : Instr} (h : s.Holds (encode i)) :
    ∃ rest, [s.progWord s.pc, s.progWord (s.pc + 1)] = encode i ++ rest := by
  have hlen := length_encode i
  rcases i.words_eq with h1 | h2
  · obtain ⟨w, hw⟩ := List.length_eq_one_iff.1 (hlen.trans h1)
    rw [hw] at h ⊢
    exact ⟨[s.progWord (s.pc + 1)], by rw [← h 0 w rfl]; rfl⟩
  · obtain ⟨w, w2, hw⟩ := List.length_eq_two.1 (hlen.trans h2)
    rw [hw] at h ⊢
    exact ⟨[], by rw [← h 0 w rfl, ← h 1 w2 rfl]; rfl⟩

/-- A step at the words of a well-formed admitted instruction is that instruction's meaning. -/
theorem step_of_holds_encode {s : State} {i : Instr} (hwf : i.wf = true) (ha : admitted s.params i.mnemonic = true)
    (h : s.Holds (encode i)) (hin : s.pc + i.words ≤ s.params.flashWords) : step s = exec i s := by
  obtain ⟨rest, hw⟩ := progWords_of_holds_encode h
  have hd : decode [s.progWord s.pc, s.progWord (s.pc + 1)] = .ok (i.decoded, rest) :=
    hw ▸ decode_encode_decoded hwf rest
  have hwords : i.decoded.words = i.words := by cases i <;> rfl
  have hsource : i.decoded.mnemonic.fromSource = i.mnemonic.fromSource := by cases i <;> rfl
  rw [stepRunsTheDecodedInstruction s i.decoded rest hd (hwords ▸ hin) (by rwa [admitted, hsource]), exec_decoded]

theorem runToEnd_of_final {s : State} (h : s.IsFinal) (n : Nat) : runToEnd n s = .final s := by
  cases n <;> simp [runToEnd, h]

theorem runToEnd_succ_of_next {s t : State} (hf : ¬ s.IsFinal) (h : step s = .next t) (n : Nat) :
    runToEnd (n + 1) s = runToEnd n t := by
  simp [runToEnd, hf, h]

theorem runToEnd_succ_of_refused {s : State} {r : Refusal} (hf : ¬ s.IsFinal) (h : step s = .refused r) (n : Nat) :
    runToEnd (n + 1) s = .refused r := by
  simp [runToEnd, hf, h]

theorem execSeq_cons_of_next {i : Instr} {s t : State} (h : exec i s = .next t) (is : List Instr) :
    execSeq (i :: is) s = execSeq is t := by
  simp [execSeq, h]

theorem execSeq_cons_of_refused {i : Instr} {s : State} {r : Refusal} (h : exec i s = .refused r) (is : List Instr) :
    execSeq (i :: is) s = .refused r := by
  simp [execSeq, h]

/-- Settles O55, by induction on the fragment: each step is the meaning of the first instruction left, and past it
program memory holds the others from `pc` on. -/
theorem fragmentRunsAsItsInstructions : Obligations.FragmentRunsAsItsInstructions := by
  intro is
  induction is with
  | nil =>
    intro s _ _ hend _
    have hfinal : s.IsFinal := hend.symm
    exact ⟨runToEnd_of_final hfinal 0, .inl ⟨s, rfl, hfinal⟩⟩
  | cons i is ih =>
    intro s hwf hholds hend hin
    obtain ⟨hwfi, hadm⟩ := hwf i List.mem_cons_self
    replace hholds : s.Holds (encode i ++ is.flatMap encode) := hholds
    rw [List.flatMap_cons, List.length_append, length_encode] at hend
    have hwords := i.words_eq
    have hnot : ¬ s.IsFinal := fun hf => by simp only [State.IsFinal] at hf; omega
    have hstep : step s = exec i s := step_of_holds_encode hwfi hadm hholds.left (by omega)
    match hexec : exec i s with
    | .fault r => cases r
    | .refused r =>
      rw [List.length_cons, runToEnd_succ_of_refused hnot (hstep.trans hexec), execSeq_cons_of_refused hexec]
      exact ⟨rfl, .inr ⟨r, rfl⟩⟩
    | .next t =>
      have hpast := exec_past hexec
      rw [List.length_cons, runToEnd_succ_of_next hnot (hstep.trans hexec), execSeq_cons_of_next hexec,
        ← hpast.params]
      refine ih t ?_ (hholds.past (by rwa [length_encode])) ?_ ?_
      · exact fun j hj => hpast.params ▸ hwf j (List.mem_cons_of_mem i hj)
      · rw [hpast.params, hpast.pc, hend, Nat.add_assoc]
      · rwa [hpast.params]

end Sys2Proof.Machine

/-! PROOFS. The statements of spec/10_state.md: the registers and flags an instruction reads and writes, `pc`, and the
accessors of the state. They rest on one reading of `exec`: an instruction takes its inputs (the checks of R144 and the
byte at its data address), and then writes registers, flags and `pc` by its inputs and the state before. -/

namespace Sys2Proof.Machine

/-! ### Registers written one after another -/

/-- The registers of `ws` written in turn, the last write of a register standing. -/
def State.setRegs (s : State) (ws : List (Reg × Byte)) : State := ws.foldl (fun s w => s.setReg w.1 w.2) s

/-- After the same writes a register reads the same in two states, if it was among the written or read the same
before. -/
theorem State.setRegs_reg_congr {s s' : State} {j : Reg} {ws : List (Reg × Byte)}
    (h : j ∉ ws.map Prod.fst → s'.reg j = s.reg j) : (s'.setRegs ws).reg j = (s.setRegs ws).reg j := by
  induction ws generalizing s s' with
  | nil => exact h (by simp)
  | cons w ws ih =>
    refine ih fun hj => ?_
    rw [State.reg_setReg, State.reg_setReg]
    split
    · rfl
    · next hw => exact h (by simp [hw, hj])

theorem State.setRegs_reg_of_notMem {s : State} {j : Reg} {ws : List (Reg × Byte)} (h : j ∉ ws.map Prod.fst) :
    (s.setRegs ws).reg j = s.reg j := by
  induction ws generalizing s with
  | nil => rfl
  | cons w ws ih =>
    obtain ⟨hw, hj⟩ : j ≠ w.1 ∧ j ∉ ws.map Prod.fst := by simpa using h
    exact (ih hj).trans (s.reg_setReg_ne w.2 hw)

/-- The writes of a pair (R18). -/
def pairWrites (d : Reg) (v : Word) : List (Reg × Byte) := [(d, v.extractLsb' 0 8), (pairHigh d, v.extractLsb' 8 8)]

/-! ### What an instruction takes in and what it writes -/

/-- `MemRead(a, 1)` (R43) as the byte and the count of drawn bytes after it. -/
def readByte (s : State) (a : Addr) : Except Refusal (Byte × Nat) :=
  (memRead s a).map fun (v, t) => (v, t.draws)

/-- What an instruction takes in before it writes anything: the byte at its data address (0 for an instruction that is
no load) and the count of drawn bytes after that read, or the first check that fails, in the order of R144: the device
has it (3), its operands can be encoded (R79), its own operand refusals (5), the data address is mapped (6). -/
def execInputs (i : Instr) (s : State) : Except Refusal (Byte × Nat) :=
  if available s.params (availabilityRow i) then
    if i.wf then
      match operandRefusal s i with
      | some r => .error r
      | none =>
        match loadAddress s i with
        | some a => readByte s a
        | none => .ok (0, s.draws)
    else .error .operandOutOfRange
  else .error .instructionNotAvailable

/-- The registers an instruction writes, in its order, with their values; `v` is the byte it loaded. -/
def execWrites (i : Instr) (v : Byte) (s : State) : List (Reg × Byte) :=
  match i with
  | .movw d r => pairWrites d (s.pair r)
  | .add d r => [(d, s.reg d + s.reg r)]
  | .and d r => [(d, s.reg d &&& s.reg r)]
  | .mov d r => [(d, s.reg r)]
  | .andi d K => [(d, s.reg d &&& K)]
  | .lds d _ => [(d, v)]
  | .adiw d K => pairWrites d (s.pair d + immediate6 K)
  | .ldi d K => [(d, K)]
  | .ldZ d => [(d, v)]
  | .ldZInc d => (d, v) :: pairWrites regZL (s.z + 1)
  | .ldZDec d => pairWrites regZL (s.z - 1) ++ [(d, v)]
  | .lddZ d _ => [(d, v)]
  | .lsr d => [(d, s.reg d >>> 1)]

/-- The flags after an instruction (R33). -/
def execFlags (i : Instr) (s : State) : Sreg :=
  match i with
  | .add d r => addFlags (s.reg d) (s.reg r) (s.reg d + s.reg r) s.sreg
  | .adiw d K => adiwFlags (s.pair d) (s.pair d + immediate6 K) s.sreg
  | .and d r => logicFlags (s.reg d &&& s.reg r) s.sreg
  | .andi d K => logicFlags (s.reg d &&& K) s.sreg
  | .lsr d => lsrFlags (s.reg d) (s.reg d >>> 1) s.sreg
  | _ => s.sreg

/-- The state after an instruction whose inputs are the byte `v` and the count `n` of drawn bytes. -/
def execFinish (i : Instr) (v : Byte) (n : Nat) (s : State) : State :=
  { s.setRegs (execWrites i v s) with sreg := execFlags i s, pc := s.pc + i.words, draws := n }

/-- What an instruction answers to its inputs. -/
def execAnswer (i : Instr) (s : State) : Except Refusal (Byte × Nat) → Result
  | .error r => .refused r
  | .ok (v, n) => .next (execFinish i v n s)

/-- A load answers its inputs when its finishing update is that of the instruction. -/
theorem withByteAt_eq_answer {i : Instr} {a : Addr} {s : State} {finish : Byte → State → State}
    (h : ∀ v n, finish v { s with draws := n } = execFinish i v n s) :
    withByteAt a s finish = execAnswer i s (readByte s a) := by
  match hread : memRead s a with
  | .error r =>
    rw [withByteAt_of_error finish hread, readByte, hread]
    rfl
  | .ok (v, t) =>
    rw [withByteAt_of_ok finish hread, readByte, hread]
    have ht : t = { s with draws := t.draws } := by rcases memRead_state hread with rfl | rfl <;> rfl
    exact congrArg Host.Outcome.next ((congrArg (finish v) ht).trans (h v t.draws))

/-- The one reading of `exec`: every instruction answers its inputs. -/
theorem exec_eq_answer (i : Instr) (s : State) : exec i s = execAnswer i s (execInputs i s) := by
  cases i
  case movw | adiw =>
    simp only [exec, execMovw, execAdiw, requireAvailable, requireOperand, execInputs, apply_ite (execAnswer _ s)]
    rfl
  case andi | ldi =>
    simp only [exec, execAndi, execLdi, requireOperand, execInputs, apply_ite (execAnswer _ s)]
    rfl
  case lds d k =>
    simp only [exec, execLds, requireAvailable, execInputs, availabilityRow, Instr.wf, operandRefusal, if_true]
    split_ifs
    · exact withByteAt_eq_answer fun _ _ => rfl
    · rfl
  case ldZ d => exact withByteAt_eq_answer fun _ _ => rfl
  case ldZInc | ldZDec =>
    simp only [exec, execLdZInc, execLdZDec, isHalfOfZ_eq_true, regZL, regZH, execInputs, availabilityRow, available,
      Instr.wf, operandRefusal, if_true]
    split_ifs
    · rfl
    · rfl
    · exact withByteAt_eq_answer fun _ _ => rfl
  case lddZ d q =>
    simp only [exec, execLddZ, requireAvailable, zDisplacementLeaves_eq_true, execInputs, availabilityRow, Instr.wf,
      operandRefusal, if_true]
    split_ifs
    · rfl
    · exact withByteAt_eq_answer fun _ _ => rfl
    · rfl
  all_goals rfl

/-- Everything a completed instruction does: its inputs were answered, and it finished with them. -/
theorem exec_next {i : Instr} {s t : State} (h : exec i s = .next t) :
    ∃ v n, execInputs i s = .ok (v, n) ∧ t = execFinish i v n s := by
  rw [exec_eq_answer] at h
  match hin : execInputs i s with
  | .error r => simp [hin, execAnswer] at h
  | .ok (v, n) =>
    rw [hin] at h
    injection h with h
    exact ⟨v, n, rfl, h.symm⟩

/-- The one way an instruction is refused. -/
theorem execInputs_of_refused {i : Instr} {s : State} {r : Refusal} (h : exec i s = .refused r) :
    execInputs i s = .error r := by
  rw [exec_eq_answer] at h
  match hin : execInputs i s with
  | .error r' =>
    rw [hin] at h
    injection h with h
    rw [h]
  | .ok (v, n) => simp [hin, execAnswer] at h

/-- The flags of a completed instruction depend on nothing it loads. -/
theorem exec_sreg {i : Instr} {s t : State} (h : exec i s = .next t) : t.sreg = execFlags i s := by
  obtain ⟨v, n, -, rfl⟩ := exec_next h
  rfl

/-! ### The flags an instruction writes -/

/-- A flag outside the table of R33 keeps its value. -/
theorem execFlags_get_of_notMem {i : Instr} {s : State} {x : Flag} (h : x ∉ flagsWritten i.mnemonic) :
    (execFlags i s).get x = s.sreg.get x := by
  cases i
  case add | adiw | and | andi | lsr => cases x <;> simp [flagsWritten, Instr.mnemonic] at h <;> rfl
  all_goals rfl

/-- Where `S` is written it is `N ^ V` of the flags after (R32). -/
theorem execFlags_S {i : Instr} {s : State} (h : .S ∈ flagsWritten i.mnemonic) :
    (execFlags i s).S = ((execFlags i s).N ^^ (execFlags i s).V) := by
  cases i
  case add | adiw | and | andi | lsr => rfl
  all_goals cases h

/-- The flags an instruction writes do not depend on the flags before (R34). -/
theorem execFlags_get_setSreg {i : Instr} {s : State} {x : Flag} (f : Sreg) (h : x ∈ flagsWritten i.mnemonic) :
    (execFlags i (s.setSreg f)).get x = (execFlags i s).get x := by
  cases i
  case add | adiw | and | andi | lsr => fin_cases h <;> rfl
  all_goals cases h

/-! ### What an instruction reads -/

/-- `s'` agrees with `s` on everything instruction `i` may look at, flags and `pc` apart: the device, RAM, the count of
drawn bytes, the registers of the table of R25, and the register that stands at its data address, if one does. -/
structure State.AgreesFor (i : Instr) (s s' : State) : Prop where
  params : s'.params = s.params
  data : s'.data = s.data
  draws : s'.draws = s.draws
  read : ∀ j ∈ regsRead i, s'.reg j = s.reg j
  loaded : ∀ a j, loadAddress s i = some a → s.target a = .reg j → s'.reg j = s.reg j

theorem State.pair_congr {s s' : State} {d : Reg} (hl : s'.reg d = s.reg d)
    (hh : s'.reg (pairHigh d) = s.reg (pairHigh d)) : s'.pair d = s.pair d := by
  rw [State.pair, State.pair, hl, hh]

theorem State.z_congr {s s' : State} (h : ∀ j ∈ [regZL, regZH], s'.reg j = s.reg j) : s'.z = s.z :=
  State.pair_congr (h regZL (by decide)) (h regZH (by decide))

theorem operandRefusal_congr {i : Instr} {s s' : State} (h : ∀ j ∈ regsRead i, s'.reg j = s.reg j) :
    operandRefusal s' i = operandRefusal s i := by
  cases i
  case ldZInc | ldZDec | lddZ => simp only [operandRefusal, State.z_congr h]
  all_goals rfl

theorem loadAddress_congr {i : Instr} {s s' : State} (h : ∀ j ∈ regsRead i, s'.reg j = s.reg j) :
    loadAddress s' i = loadAddress s i := by
  cases i
  case ldZ | ldZInc | ldZDec | lddZ => simp only [loadAddress, zDisplaced, State.z_congr h]
  all_goals rfl

theorem readByte_congr {s s' : State} {a : Addr} (hp : s'.params = s.params) (hd : s'.data = s.data)
    (hn : s'.draws = s.draws) (hr : ∀ j, s.target a = .reg j → s'.reg j = s.reg j) :
    readByte s' a = readByte s a := by
  have ht : s'.target a = s.target a := by rw [State.target, State.target, hp]
  unfold readByte memRead
  rw [ht]
  split
  · simp [Except.map, State.ram, hd, hn]
  · next j hj => simp [Except.map, hr j hj, hn]
  · simp [Except.map, hn]
  · rfl

/-- The inputs of an instruction are the same in two states that agree on what it may look at. -/
theorem execInputs_congr {i : Instr} {s s' : State} (h : s.AgreesFor i s') : execInputs i s' = execInputs i s := by
  unfold execInputs
  rw [h.params, operandRefusal_congr h.read, loadAddress_congr h.read, h.draws]
  match hload : loadAddress s i with
  | none => rfl
  | some a => simp only [readByte_congr h.params h.data h.draws fun j => h.loaded a j hload]

/-- The values an instruction writes are made of the byte it loads and the registers it reads. -/
theorem execWrites_congr {i : Instr} {v : Byte} {s s' : State} (h : ∀ j ∈ regsRead i, s'.reg j = s.reg j) :
    execWrites i v s' = execWrites i v s := by
  cases i
  case movw d r => rw [execWrites, execWrites, State.pair_congr (h r (.head _)) (h _ (.tail _ (.head _)))]
  case adiw d K => rw [execWrites, execWrites, State.pair_congr (h d (.head _)) (h _ (.tail _ (.head _)))]
  case add d r | and d r => rw [execWrites, execWrites, h d (.head _), h r (.tail _ (.head _))]
  case mov _ d | andi d _ | lsr d => rw [execWrites, execWrites, h d (.head _)]
  case ldZInc | ldZDec => rw [execWrites, execWrites, State.z_congr h]
  all_goals rfl

/-- So are the flags after it, but for those it leaves alone. -/
theorem execFlags_congr {i : Instr} {s s' : State} (h : ∀ j ∈ regsRead i, s'.reg j = s.reg j)
    (hf : s'.sreg = s.sreg) : execFlags i s' = execFlags i s := by
  cases i
  case adiw d K => rw [execFlags, execFlags, State.pair_congr (h d (.head _)) (h _ (.tail _ (.head _))), hf]
  case add d r | and d r => rw [execFlags, execFlags, h d (.head _), h r (.tail _ (.head _)), hf]
  case andi d _ | lsr d => rw [execFlags, execFlags, h d (.head _), hf]
  all_goals exact hf

/-- The registers an instruction writes are those of the table of R25, whatever the values. -/
theorem mem_map_fst_execWrites (i : Instr) (v : Byte) (s : State) (j : Reg) :
    j ∈ (execWrites i v s).map Prod.fst ↔ j ∈ regsWritten i := by
  cases i
  case ldZDec d => simp [execWrites, pairWrites, regsWritten, or_comm, or_left_comm]
  all_goals rfl

/-- Finishing from other flags differs in the flags alone. -/
theorem execFinish_setSreg (i : Instr) (v : Byte) (n : Nat) (s : State) (f : Sreg) :
    execFinish i v n (s.setSreg f) = (execFinish i v n s).setSreg (execFlags i (s.setSreg f)) := by
  cases i <;> rfl

/-- From a state that agrees on what an instruction may look at, it ends the same way. -/
theorem exec_congr {i : Instr} {s s' : State} (h : s.AgreesFor i s') :
    (∀ t, exec i s = .next t → ∃ v n, t = execFinish i v n s ∧ exec i s' = .next (execFinish i v n s')) ∧
    ∀ r, exec i s = .refused r → exec i s' = .refused r := by
  rw [exec_eq_answer i s', execInputs_congr h]
  constructor
  · intro t ht
    obtain ⟨v, n, hin, rfl⟩ := exec_next ht
    exact ⟨v, n, rfl, by rw [hin]; rfl⟩
  · intro r hr
    rw [execInputs_of_refused hr]
    rfl

/-! ### What a completed instruction does to `pc`, the flags and the registers -/

/-- Settles O40: a completed instruction is past its own words, and LDS alone has two. -/
theorem programCounterMovesByTheLength : Obligations.ProgramCounterMovesByTheLength := by
  intro i s t h
  have hpc : t.pc = s.pc + i.words := (exec_past h).pc
  refine ⟨?_, fun hne => ?_⟩
  · rintro ⟨d, k, rfl⟩
    exact hpc
  · cases i
    case lds d k => exact absurd rfl (hne d k)
    all_goals exact hpc

/-- Settles O41, on the flags `execFlags` gives a completed instruction. -/
theorem flagsWrittenAreTheTable : Obligations.FlagsWrittenAreTheTable := by
  intro i s t h
  rw [exec_sreg h]
  refine ⟨fun x hx => execFlags_get_of_notMem hx, fun hm => ?_, fun hm => ?_⟩
  · cases i
    case and | andi => rfl
    all_goals simp [Instr.mnemonic] at hm
  · cases i
    case lsr => rfl
    all_goals cases hm

/-- Settles O42: an instruction that does not write `S` writes neither `V` nor `N`. -/
theorem signFlagIsNXorVWhereWritten : Obligations.SignFlagIsNXorVWhereWritten := by
  intro i s t h
  rw [exec_sreg h]
  have hrow : ∀ m, .S ∉ flagsWritten m → .V ∉ flagsWritten m ∧ .N ∉ flagsWritten m := by
    intro m
    cases m <;> decide
  refine ⟨execFlags_S, fun hS => ?_⟩
  obtain ⟨hV, hN⟩ := hrow _ hS
  exact ⟨execFlags_get_of_notMem hS, execFlags_get_of_notMem hV, execFlags_get_of_notMem hN⟩

/-- Settles O43: a state with other flags agrees on all an instruction may look at. -/
theorem noInstructionReadsAFlag : Obligations.NoInstructionReadsAFlag := by
  intro i s f
  have hagree : s.AgreesFor i (s.setSreg f) := ⟨rfl, rfl, rfl, fun _ _ => rfl, fun _ _ _ _ => rfl⟩
  obtain ⟨hnext, hrefused⟩ := exec_congr hagree
  refine ⟨fun t ht => ?_, hrefused⟩
  obtain ⟨v, n, rfl, hu⟩ := hnext t ht
  exact ⟨_, hu, execFinish_setSreg i v n s f, fun x hx => execFlags_get_setSreg f hx⟩

/-- Settles O44: in the two states the inputs, the values written and the flags are the same. -/
theorem registersReadAndWrittenAreTheTable : Obligations.RegistersReadAndWrittenAreTheTable := by
  refine ⟨fun i s t h j hj => ?_, fun i s regs s' hs' hread hload => ?_⟩
  · obtain ⟨v, n, -, rfl⟩ := exec_next h
    exact State.setRegs_reg_of_notMem fun hw => hj ((mem_map_fst_execWrites i v s j).1 hw)
  · subst hs'
    have hagree : s.AgreesFor i { s with regs := regs } := ⟨rfl, rfl, rfl, hread, hload⟩
    obtain ⟨hnext, hrefused⟩ := exec_congr hagree
    refine ⟨fun t ht => ?_, hrefused⟩
    obtain ⟨v, n, rfl, ht'⟩ := hnext t ht
    refine ⟨_, ht', fun j hj => ?_, execFlags_congr hread rfl, rfl, rfl⟩
    have hwritten := (mem_map_fst_execWrites i v s j).2 hj
    rw [execFinish, execWrites_congr hread]
    exact State.setRegs_reg_congr fun hw => absurd hwritten hw

/-! ### The accessors of the state -/

/-- Settles O47, by what a register reads after one is written. -/
theorem noRegisterIsHardwired : Obligations.NoRegisterIsHardwired :=
  fun s i _ v => ⟨s.reg_setReg_self i v, s.reg_setReg_ne v⟩

theorem eq_pairHigh {d h : Reg} (hh : h.val = d.val + 1) : h = pairHigh d := by
  refine Fin.ext ?_
  simp only [pairHigh, Fin.val_add, Fin.val_one]
  omega

/-- Settles O48: the register numbered next is the high half of the pair. -/
theorem pairIsTwoRegisters : Obligations.PairIsTwoRegisters := by
  intro s d h v hh
  obtain rfl := eq_pairHigh hh
  exact ⟨s.pair_toNat d, s.pair_setPair_self d v, fun _ => s.setPair_reg_ne v⟩

/-- Settles O49: the printed byte reads back as the flags, bit by bit. -/
theorem sregBitPositions : Obligations.SregBitPositions := by
  intro f
  have h := Sreg.ofByte_toByte f
  exact ⟨congrArg Sreg.C h, congrArg Sreg.Z h, congrArg Sreg.N h, congrArg Sreg.V h, congrArg Sreg.S h,
    congrArg Sreg.H h, congrArg Sreg.T h, congrArg Sreg.I h⟩

end Sys2Proof.Machine

/-! PROOFS. The statements of spec/20_memory.md: program memory as the fetch reads it, a read and a store of the data
space by what stands at the address, and that no run writes memory. -/

namespace Sys2Proof

/-- A first word of a two-word row with no word after it decodes to nothing (R62). -/
theorem decode_cut_off {w : Word} {row : OpcodeRow} (hrow : rowOf w = some row) (h : row.words ≠ 1) :
    decode [w] = .error (.truncated row.name) := by
  simp [decode, hrow, h]

/-- A word with the fixed bits of LDS has the row of LDS (R72). -/
theorem rowOf_lds {w : Word} (h : w &&& 0xFE0F#16 = 0x9000#16) :
    rowOf w = some ⟨.lds, 0xFE0F#16, 0x9000#16, 2⟩ :=
  rowOf_eq_some (by decide) (beq_iff_eq.2 h) (by decide)

end Sys2Proof

namespace Sys2Proof.Machine

/-! ### Program memory -/

theorem progRead_of_lt {s : State} {p : Nat} (h : p < s.params.flashWords) : progRead s p = .ok (s.progWord p) :=
  if_pos h

theorem progRead_of_le {s : State} {p : Nat} (h : s.params.flashWords ≤ p) :
    progRead s p = .error .fetchOutsideProgramMemory :=
  if_neg (Nat.not_lt.2 h)

theorem fetchWords_of_le {s : State} (h : s.params.flashWords ≤ s.pc) : fetchWords s = [] := by
  rw [fetchWords, progRead_of_le h]

theorem fetchWords_at_last {s : State} (h : s.pc + 1 = s.params.flashWords) : fetchWords s = [s.progWord s.pc] := by
  rw [fetchWords, progRead_of_lt (by omega), progRead_of_le h.ge]

/-- At or past the end of program memory nothing is fetched (R44, D2). -/
theorem step_of_flashWords_le {s : State} (h : s.params.flashWords ≤ s.pc) :
    step s = .refused .fetchOutsideProgramMemory := by
  refine step_of_fetch_error ?_
  rw [fetchInstr, fetchWords_of_le h]
  rfl

/-- An LDS that the device has, at the last word of program memory, lacks its second word (R44, D2). -/
theorem step_of_lds_at_last {s : State} (hpc : s.pc + 1 = s.params.flashWords)
    (hw : s.progWord s.pc &&& 0xFE0F#16 = 0x9000#16) (ha : available s.params .lds = true) :
    step s = .refused .fetchOutsideProgramMemory := by
  have hcut : decode (fetchWords s) = .error (.truncated .lds) := by
    rw [fetchWords_at_last hpc]
    exact decode_cut_off (rowOf_lds hw) (by decide)
  have hadm : admitted s.params .lds = true := rfl
  refine step_of_fetch_error ?_
  simp [fetchInstr, hcut, hadm, ha]

/-- An LDS whose two words lie inside program memory takes its address from the second (R44, R70, D6). -/
theorem step_of_lds {s : State} (hpc : s.pc + 1 < s.params.flashWords)
    (hw : s.progWord s.pc &&& 0xFE0F#16 = 0x9000#16) :
    step s = exec (.lds (reg5 (fieldD5 (s.progWord s.pc))) (s.progWord (s.pc + 1))) s :=
  stepRunsTheDecodedInstruction s _ [] (decode_of_row (ws := [s.progWord (s.pc + 1)]) (rowOf_lds hw) rfl []) hpc rfl

/-- Settles O8, by the three ways the words at `pc` can lie about the end of program memory. -/
theorem programReadsStopAtFlashWords : Obligations.ProgramReadsStopAtFlashWords :=
  ⟨fun _ _ => progRead_of_lt, fun _ _ => progRead_of_le, fun _ => step_of_flashWords_le,
    fun _ => step_of_lds_at_last, fun _ => step_of_lds⟩

/-! ### Data reads by region -/

theorem memRead_sram {s : State} {a : Addr} (h : s.target a = .sram) : memRead s a = .ok (s.ram a, s) := by
  simp [memRead, h]

theorem memRead_reg {s : State} {a : Addr} {i : Reg} (h : s.target a = .reg i) : memRead s a = .ok (s.reg i, s) := by
  simp [memRead, h]

theorem memRead_io {s : State} {a : Addr} {j : Nat} (h : s.target a = .io j) :
    memRead s a = .ok (Config.drawByte s.draws, s.countDraw) := by
  simp [memRead, h]

/-- Settles O29, region by region. -/
theorem dataReadsByRegion : Obligations.DataReadsByRegion :=
  fun _ _ => ⟨memRead_sram, fun _ => memRead_reg, fun _ h => ⟨_, memRead_io h⟩, memRead_unmapped⟩

/-- Settles O38: only a read of an I/O location leaves another state, and that differs in the count of drawn bytes. -/
theorem dataReadsHaveNoSideEffect : Obligations.DataReadsHaveNoSideEffect := by
  intro s t a v h
  rcases memRead_cases h with ⟨-, -, rfl⟩ | ⟨i, -, -, rfl⟩ | ⟨j, hj, -, rfl⟩
  · exact ⟨rfl, fun _ => ⟨rfl, h⟩⟩
  · exact ⟨rfl, fun _ => ⟨rfl, h⟩⟩
  · exact ⟨rfl, fun hne => absurd hj (hne j)⟩

/-- Settles O39: the two reads answer the two registers of the pair. -/
theorem mappedPairLiesLowByteFirst : Obligations.MappedPairLiesLowByteFirst := by
  intro s d h a b hh _ ha hb
  obtain rfl := eq_pairHigh hh
  refine ⟨s.reg d, s.reg (pairHigh d), memRead_reg ha, memRead_reg hb, ?_⟩
  rw [s.pair_toNat d]
  omega

/-! ### Stores by region -/

/-- `s` with the byte `v` placed at the RAM address `a`. -/
def State.setRam (s : State) (a : Addr) (v : Byte) : State := { s with data := writeCell blankByte s.data a.toNat v }

/-- Reading a byte of RAM after placing one. -/
theorem State.ram_setRam {s : State} (h : Memory.wf s.data) (a b : Addr) (v : Byte) :
    (s.setRam a v).ram b = if b = a then v else s.ram b :=
  (readCell_writeCell h a.toNat b.toNat v).trans (if_congr BitVec.toNat_inj rfl rfl)

theorem memWrite_sram {s : State} {a : Addr} (h : s.target a = .sram) (v : Byte) :
    memWrite s a v = .ok (s.setRam a v) := by
  simp [memWrite, h, State.setRam]

theorem memWrite_reg {s : State} {a : Addr} {i : Reg} (h : s.target a = .reg i) (v : Byte) :
    memWrite s a v = .ok (s.setReg i v) := by
  simp [memWrite, h]

theorem memWrite_io {s : State} {a : Addr} {j : Nat} (h : s.target a = .io j) (v : Byte) :
    memWrite s a v = .error .unmodelledStoreTarget := by
  simp [memWrite, h]

theorem memWrite_unmapped {s : State} {a : Addr} (h : s.target a = .unmapped) (v : Byte) :
    memWrite s a v = .error .unmodelledStoreTarget := by
  simp [memWrite, h]

/-- Settles O30, region by region. -/
theorem dataWritesByRegion : Obligations.DataWritesByRegion := by
  intro s a v
  refine ⟨fun h hwf => ?_, fun _ h => memWrite_reg h v, fun _ h => memWrite_io h v, fun h => memWrite_unmapped h v⟩
  refine ⟨s.setRam a v, memWrite_sram h v, ?_, fun b hb => ?_, writeCell_wf hwf a.toNat v, rfl⟩
  · rw [State.ram_setRam hwf, if_pos rfl]
  · rw [State.ram_setRam hwf, if_neg hb]

/-! ### What every run keeps -/

/-- A completed step is past the instruction it fetched. -/
theorem step_past {s t : State} (h : step s = .next t) : ∃ n, s.Past n t := by
  obtain ⟨i, -, hexec⟩ := step_next h
  exact ⟨i.words, exec_past hexec⟩

/-- A part of the state that every move past an instruction keeps is kept along every run. -/
theorem run_keeps {α : Type} (f : State → α) (hf : ∀ {s t : State} {n : Nat}, s.Past n t → f t = f s) {n : Nat}
    {s t : State} (h : runSteps n s = .next t) : f t = f s := by
  refine run_of_step (R := fun s t => f t = f s) (fun _ => rfl) (fun hst htu => htu.trans hst) ?_ h
  intro s t hstep
  obtain ⟨n, hpast⟩ := step_past hstep
  exact hf hpast

/-- Settles O45: no instruction writes either memory or the device. -/
theorem noRunChangesMemory : Obligations.NoRunChangesMemory :=
  fun _ _ _ h => ⟨run_keeps State.data State.Past.data h, run_keeps State.prog State.Past.prog h,
    run_keeps State.params State.Past.params h⟩

end Sys2Proof.Machine

/-! PROOFS. The statements of spec/30_encoding.md: the words of an instruction and the instruction of a word determine
each other, the rows of the opcode map, and the words and operands that are refused. -/

namespace Sys2Proof

/-! ### The row of a decoded word -/

/-- Everything the decoder can answer with an instruction, by the words it takes: a first word of some row, with as many
words after it as the row's length asks for, and the row's operands. The converse of `decode_of_row`. -/
theorem decode_row {ws rest : List Word} {i : Instr} (h : decode ws = .ok (i, rest)) :
    ∃ w own row, ws = w :: own ++ rest ∧ rowOf w = some row ∧ own.length + 1 = row.words ∧
      i = operandsOf row.name w (own.headD 0) := by
  rcases decode_cases h with ⟨w, row, rfl, hrow, h1, rfl⟩ | ⟨w, w2, row, rfl, hrow, h1, rfl⟩
  · exact ⟨w, [], row, rfl, hrow, h1.symm, rfl⟩
  · exact ⟨w, [w2], row, rfl, hrow, ((rowOf_words hrow).resolve_left h1).symm, rfl⟩

@[simp] theorem operandsOf_mnemonic (m : Mnemonic) (w w2 : Word) : (operandsOf m w w2).mnemonic = m := by
  cases m <;> rfl

theorem Instr.mnemonic_eq_ldZ {i : Instr} : i.mnemonic = .ldZ ↔ ∃ d, i = .ldZ d := by
  cases i <;> simp [Instr.mnemonic]

/-- Every row is of one word but that of LDS (R60). -/
theorem one_word_row_or_lds {row : OpcodeRow} (hmem : row ∈ opcodeMap) :
    (row.words = 1 ∧ row.name ≠ .lds) ∨ row = ⟨.lds, 0xFE0F#16, 0x9000#16, 2⟩ := by
  have hall : ∀ r ∈ opcodeMap, (r.words = 1 ∧ r.name ≠ .lds) ∨ r = ⟨.lds, 0xFE0F#16, 0x9000#16, 2⟩ := by decide
  exact hall row hmem

/-- Settles O1: the round trip of every well-formed instruction, where that of `LD Rd,Z` ends in `LDD Rd,Z+0`. -/
theorem decodeOfEncodeIsTheInstruction : Obligations.DecodeOfEncodeIsTheInstruction := by
  refine ⟨fun i rest hwf hz => ?_, fun d rest => decode_encode_decoded (i := .ldZ d) rfl rest⟩
  have hname : i.mnemonic ≠ .ldZ := fun h => (Instr.mnemonic_eq_ldZ.1 h).elim hz
  exact decode_encode hwf hname rest

/-! ### What a register field can name -/

theorem reg16_isUpper (f : BitVec 4) : (reg16 f).isUpper = true :=
  decide_eq_true (Nat.le_add_right 16 f.toNat)

theorem regEven_isEven (f : BitVec 4) : (regEven f).isEven = true :=
  decide_eq_true (Nat.mul_mod_right 2 f.toNat)

theorem regPair24_isUpperPair : ∀ f : BitVec 2, (regPair24 f).isUpperPair = true := by decide

/-- The operands a row takes from its words are in the ranges of R79. -/
theorem operandsOf_wf (m : Mnemonic) (w w2 : Word) : (operandsOf m w w2).wf = true := by
  cases m
  case movw => exact Bool.and_eq_true_iff.2 ⟨regEven_isEven _, regEven_isEven _⟩
  case andi => exact reg16_isUpper _
  case ldi => exact reg16_isUpper _
  case adiw => exact regPair24_isUpperPair _
  all_goals rfl

/-- Settles O3: the fields name registers in range only, and no word has the row of `LD Rd,Z`. -/
theorem decodedInstructionsAreWellFormed : Obligations.DecodedInstructionsAreWellFormed := by
  intro ws rest i h
  obtain ⟨w, own, row, -, hrow, -, rfl⟩ := decode_row h
  refine ⟨operandsOf_wf _ _ _, fun d hd => rowOf_name_ne_ldZ hrow ?_⟩
  rw [← operandsOf_mnemonic row.name w (own.headD 0), hd]
  rfl

/-! ### Encoding the operands of a word -/

theorem bits5_reg5 (f : BitVec 5) : bits5 (reg5 f) = f := by
  rw [bits5, reg5, BitVec.ofNat_toNat, BitVec.setWidth_eq]

theorem ofNat_reg16 (f : BitVec 4) : BitVec.ofNat 4 ((reg16 f).val - 16) = f := by
  rw [reg16, Nat.add_sub_cancel_left, BitVec.ofNat_toNat, BitVec.setWidth_eq]

theorem ofNat_regEven (f : BitVec 4) : BitVec.ofNat 4 ((regEven f).val / 2) = f := by
  rw [regEven, Nat.mul_div_cancel_left _ Nat.two_pos, BitVec.ofNat_toNat, BitVec.setWidth_eq]

theorem ofNat_regPair24 (f : BitVec 2) : BitVec.ofNat 2 (((regPair24 f).val - 24) / 2) = f := by
  rw [regPair24, Nat.add_sub_cancel_left, Nat.mul_div_cancel_left _ Nat.two_pos, BitVec.ofNat_toNat, BitVec.setWidth_eq]

/-- A slice of a word that a mask covers is the pattern's. -/
theorem extractLsb'_of_and_mask {w mask pattern : Word} (h : w &&& mask = pattern) (start len : Nat)
    (hm : mask.extractLsb' start len = BitVec.allOnes len) :
    w.extractLsb' start len = pattern.extractLsb' start len := by
  rw [← h, BitVec.extractLsb'_and, hm, BitVec.and_allOnes]

section
open BitVec

/-! Each picture, put together from the operands of a word with the picture's fixed bits, is that word: the pieces are
slices of the word, side by side from bit 15 down to bit 0. -/

theorem formatRdRr_of_fields {w : Word} {opc : BitVec 6} (h : w.extractLsb' 10 6 = opc) :
    formatRdRr opc (reg5 (fieldD5 w)) (reg5 (fieldR5 w)) = w := by
  subst h
  simp (disch := decide) only [formatRdRr, bits5_reg5, fieldD5, fieldR5, extractLsb'_append_eq_of_le,
    extractLsb'_append_eq_of_add_le, extractLsb'_append_extractLsb'_eq_extractLsb', Nat.reduceSub, extractLsb'_eq_self]

theorem formatRdK8_of_fields {w : Word} {opc : BitVec 4} (h : w.extractLsb' 12 4 = opc) :
    formatRdK8 opc (reg16 (fieldD4 w)) (fieldK8 w) = w := by
  subst h
  simp (disch := decide) only [formatRdK8, ofNat_reg16, fieldD4, fieldK8, extractLsb'_append_eq_of_le,
    extractLsb'_append_eq_of_add_le, extractLsb'_append_extractLsb'_eq_extractLsb', Nat.reduceSub, extractLsb'_eq_self]

theorem formatRd5_of_fields {w : Word} {opc : BitVec 7} {low : BitVec 4} (h : w.extractLsb' 9 7 = opc)
    (hl : w.extractLsb' 0 4 = low) : formatRd5 opc (reg5 (fieldD5 w)) low = w := by
  subst h hl
  simp (disch := decide) only [formatRd5, bits5_reg5, fieldD5, extractLsb'_append_extractLsb'_eq_extractLsb',
    extractLsb'_eq_self]

theorem movw_picture_of_fields {w : Word} (h : w.extractLsb' 8 8 = 0b00000001#8) :
    encode (.movw (regEven (fieldD4 w)) (regEven (fieldR4 w))) = [w] := by
  rw [encode, ← h]
  simp (disch := decide) only [ofNat_regEven, fieldD4, fieldR4, extractLsb'_append_extractLsb'_eq_extractLsb',
    extractLsb'_eq_self]

theorem adiw_picture_of_fields {w : Word} (h : w.extractLsb' 8 8 = 0b10010110#8) :
    encode (.adiw (regPair24 (fieldD2 w)) (fieldK6 w)) = [w] := by
  rw [encode, ← h]
  simp (disch := decide) only [ofNat_regPair24, fieldD2, fieldK6, extractLsb'_append_eq_of_le,
    extractLsb'_append_eq_of_add_le, extractLsb'_append_extractLsb'_eq_extractLsb', Nat.reduceSub, extractLsb'_eq_self]

theorem lddZ_picture_of_fields {w : Word} (h14 : w.extractLsb' 14 2 = 0b10#2) (h12 : w.extractLsb' 12 1 = 0b0#1)
    (h9 : w.extractLsb' 9 1 = 0b0#1) (h3 : w.extractLsb' 3 1 = 0b0#1) :
    encode (.lddZ (reg5 (fieldD5 w)) (fieldQ6 w)) = [w] := by
  have hslices : w.extractLsb' 14 2 ++ w.extractLsb' 13 1 ++ w.extractLsb' 12 1 ++ w.extractLsb' 10 2 ++
      w.extractLsb' 9 1 ++ w.extractLsb' 4 5 ++ w.extractLsb' 3 1 ++ w.extractLsb' 0 3 = w := by
    simp (disch := decide) only [extractLsb'_append_extractLsb'_eq_extractLsb', extractLsb'_eq_self]
  rw [h14, h12, h9, h3] at hslices
  simp (disch := decide) only [encode, bits5_reg5, fieldD5, fieldQ6, extractLsb'_append_eq_of_le,
    extractLsb'_append_eq_of_add_le, Nat.reduceSub, extractLsb'_eq_self]
  exact congrArg ([·]) hslices

end

/-- Encoding the operands a row takes from its words gives those words back, for the rows in the order of the map. -/
theorem encode_operandsOf {row : OpcodeRow} (hmem : row ∈ opcodeMap) {w : Word} (hw : row.matchesWord w = true)
    {own : List Word} (hlen : own.length + 1 = row.words) :
    encode (operandsOf row.name w (own.headD 0)) = w :: own := by
  have hslice := extractLsb'_of_and_mask (beq_iff_eq.1 hw)
  rcases one_word_row_or_lds hmem with ⟨hone, hlds⟩ | rfl
  · obtain rfl := List.length_eq_zero_iff.1 (Nat.succ.inj (hlen.trans hone))
    simp only [opcodeMap] at hmem
    fin_cases hmem
    · exact movw_picture_of_fields (hslice 8 8 rfl)
    · exact congrArg ([·]) (formatRdRr_of_fields (hslice 10 6 rfl))
    · exact congrArg ([·]) (formatRdRr_of_fields (hslice 10 6 rfl))
    · exact congrArg ([·]) (formatRdRr_of_fields (hslice 10 6 rfl))
    · exact congrArg ([·]) (formatRdK8_of_fields (hslice 12 4 rfl))
    · exact absurd rfl hlds
    · exact adiw_picture_of_fields (hslice 8 8 rfl)
    · exact congrArg ([·]) (formatRdK8_of_fields (hslice 12 4 rfl))
    · exact lddZ_picture_of_fields (hslice 14 2 rfl) (hslice 12 1 rfl) (hslice 9 1 rfl) (hslice 3 1 rfl)
    all_goals exact congrArg ([·]) (formatRd5_of_fields (hslice 9 7 rfl) (hslice 0 4 rfl))
  · obtain ⟨w2, rfl⟩ := List.length_eq_one_iff.1 (Nat.succ.inj hlen)
    exact congrArg (· :: [w2]) (formatRd5_of_fields (hslice 9 7 rfl) (hslice 0 4 rfl))

/-- Settles O2: the words taken are those of the first word's row, whose operands encode to them. -/
theorem encodeOfDecodeIsTheWords : Obligations.EncodeOfDecodeIsTheWords := by
  intro ws rest i h
  obtain ⟨w, own, row, rfl, hrow, hlen, rfl⟩ := decode_row h
  obtain ⟨hmem, hw⟩ := rowOf_cases hrow
  rw [encode_operandsOf hmem hw hlen]

/-! ### Rows that share a word -/

/-- What a mask fixes, a smaller mask fixes too. -/
theorem and_mask_of_subset {w mask mask' pattern : Word} (h : w &&& mask = pattern) (hsub : mask &&& mask' = mask') :
    w &&& mask' = pattern &&& mask' := by
  rw [← h, BitVec.and_assoc, hsub]

/-- Two rows of the map that share a word are the same row, or `LD Rd,Z` and `LDD Rd,Z+q`. -/
theorem row_eq_or_ldZ_of_shared {w : Word} {r r' : OpcodeRow} (hr : r ∈ opcodeMap) (hr' : r' ∈ opcodeMap)
    (hw : r.matchesWord w = true) (hw' : r'.matchesWord w = true) :
    r = r' ∨ (r.name = .ldZ ∧ r'.name = .lddZ) ∨ (r.name = .lddZ ∧ r'.name = .ldZ) := by
  have hinOrder : opcodeMap.Pairwise fun a b => a.matchesWord w = true → b.matchesWord w = true →
      a.name = .lddZ ∧ b.name = .ldZ := by
    refine opcodeMap_apart.imp ?_
    rintro a b (hapart | hnames) ha hb
    · rw [OpcodeRow.not_both hapart ha] at hb
      cases hb
    · exact hnames
  refine List.Pairwise.forall_of_forall_of_flip (R := fun a b => a.matchesWord w = true → b.matchesWord w = true →
    a = b ∨ (a.name = .ldZ ∧ b.name = .lddZ) ∨ (a.name = .lddZ ∧ b.name = .ldZ)) ?_ ?_ ?_ hr hr' hw hw'
  · exact fun _ _ _ _ => .inl rfl
  · exact hinOrder.imp fun h ha hb => .inr (.inr (h ha hb))
  · exact hinOrder.imp fun h hb ha => .inr (.inl (h ha hb).symm)

/-- A word of `LD Rd,Z` is the one its operand encodes to. -/
theorem encode_ldZ_of_word {w : Word} (h : w &&& 0xFE0F#16 = 0x8000#16) : encode (.ldZ (reg5 (fieldD5 w))) = [w] :=
  encode_operandsOf (row := ⟨.ldZ, 0xFE0F#16, 0x8000#16, 1⟩) (own := []) (by decide) (beq_iff_eq.2 h) rfl

/-- Settles O5: rows told apart by a fixed bit share no word, and a word of `LD Rd,Z` decodes as its encoding does. -/
theorem rowsOverlapOnlyInLdZ : Obligations.RowsOverlapOnlyInLdZ := by
  refine ⟨fun w r r' hr hr' => row_eq_or_ldZ_of_shared hr hr', fun w rest h => ⟨and_mask_of_subset h rfl, ?_⟩⟩
  have hdecode := decodeOfEncodeIsTheInstruction.2 (reg5 (fieldD5 w)) rest
  rwa [encode_ldZ_of_word h] at hdecode

/-! ### The length of an instruction -/

/-- Settles O6: LDS is the one row of two words, and its fixed bits are those of its first word. -/
theorem firstWordDecidesLength : Obligations.FirstWordDecidesLength := by
  intro w w2 rest rest' i h
  refine ⟨fun hw => ?_, fun hw => ?_⟩
  · have hlds := decode_of_row (ws := [w2]) (rowOf_lds hw) rfl rest
    obtain ⟨rfl, rfl⟩ := Prod.mk.inj (Except.ok.inj (hlds.symm.trans h))
    exact ⟨⟨reg5 (fieldD5 w), rfl⟩, rfl⟩
  · obtain ⟨w', own, row, hws, hrow, hlen, rfl⟩ := decode_row h
    obtain ⟨rfl, hrest⟩ := List.cons.inj hws
    obtain ⟨hmem, hmatch⟩ := rowOf_cases hrow
    rcases one_word_row_or_lds hmem with ⟨hone, hname⟩ | rfl
    · obtain rfl := List.length_eq_zero_iff.1 (Nat.succ.inj (hlen.trans hone))
      refine ⟨fun d k hi => hname ?_, hrest.symm⟩
      rw [← operandsOf_mnemonic row.name w 0]
      exact congrArg Instr.mnemonic hi
    · exact absurd (beq_iff_eq.1 hmatch) hw

/-- Settles O4, word by word. -/
theorem decodeOfListedWords : Obligations.DecodeOfListedWords :=
  ⟨rfl, rfl, rfl, rfl, rfl, rfl, rfl, rfl, rfl, rfl, rfl, rfl, rfl, rfl, rfl⟩

/-- A word of a row decodes to the row's instruction, unless the words end inside it. -/
theorem decode_cons_of_row {w : Word} {row : OpcodeRow} (hrow : rowOf w = some row) (ws : List Word) :
    decode (w :: ws) = .error (.truncated row.name) ∨
    ∃ w2 rest, decode (w :: ws) = .ok (operandsOf row.name w w2, rest) := by
  by_cases hone : row.words = 1
  · exact .inr ⟨0, ws, decode_of_row (ws := []) hrow hone.symm ws⟩
  · match ws with
    | [] => exact .inl (decode_cut_off hrow hone)
    | w2 :: rest =>
      exact .inr ⟨w2, rest, decode_of_row (ws := [w2]) hrow ((rowOf_words hrow).resolve_left hone).symm rest⟩

end Sys2Proof

namespace Sys2Proof.Machine

/-! ### Words that are refused -/

theorem fetchWords_of_lt {s : State} (h : s.pc < s.params.flashWords) : ∃ ws, fetchWords s = s.progWord s.pc :: ws := by
  rcases fetchWords_cases s with ⟨hle, -⟩ | ⟨-, -, hw⟩ | ⟨-, hw⟩
  · omega
  · exact ⟨_, hw⟩
  · exact ⟨_, hw⟩

/-- A first word in no row is refused (R75). -/
theorem step_of_no_row {s : State} (hpc : s.pc < s.params.flashWords) (h : rowOf (s.progWord s.pc) = none) :
    step s = .refused .noRuleForWord := by
  obtain ⟨ws, hw⟩ := fetchWords_of_lt hpc
  exact step_of_fetch_error (by simp [fetchInstr, hw, decode, h])

/-- A first word in a row that is not admitted is refused in the same way (R75, D18). -/
theorem step_of_not_admitted {s : State} {row : OpcodeRow} (hpc : s.pc < s.params.flashWords)
    (hrow : rowOf (s.progWord s.pc) = some row) (h : admitted s.params row.name = false) :
    step s = .refused .noRuleForWord := by
  obtain ⟨ws, hw⟩ := fetchWords_of_lt hpc
  refine step_of_fetch_error ?_
  rcases decode_cons_of_row hrow ws with hd | ⟨w2, rest, hd⟩
  · simp [fetchInstr, hw, hd, h]
  · simp [fetchInstr, hw, hd, h]

/-- A word of an admitted row is refused where the device lacks the row's instruction, whatever its second word, and
whether or not that lies in program memory (R75, R144, D7). -/
theorem step_of_unavailable {s : State} {row : OpcodeRow} (hpc : s.pc < s.params.flashWords)
    (hrow : rowOf (s.progWord s.pc) = some row) (hadm : admitted s.params row.name = true)
    (hav : available s.params row.name = false)
    (hself : ∀ w2, availabilityRow (operandsOf row.name (s.progWord s.pc) w2) = row.name) :
    step s = .refused .instructionNotAvailable := by
  obtain ⟨ws, hw⟩ := fetchWords_of_lt hpc
  rcases decode_cons_of_row hrow ws with hd | ⟨w2, rest, hd⟩
  · exact step_of_fetch_error (by simp [fetchInstr, hw, hd, hadm, hav])
  · have hfetch := fetchInstr_of_decode (hw ▸ hd) (by rwa [operandsOf_mnemonic])
    rw [step_of_fetch hfetch]
    exact exec_of_unavailable (by rwa [hself w2])

/-- The entry of `AVAILABLE` that decides about a word's instruction is its row's, but for `LDD Rd,Z+0`. -/
theorem availabilityRow_operandsOf {m : Mnemonic} {w : Word} (h : m = .lddZ → fieldQ6 w ≠ 0) (w2 : Word) :
    availabilityRow (operandsOf m w w2) = m := by
  cases m
  case lddZ => exact lddRow_of_ne (h rfl)
  all_goals rfl

/-- A word of LDD with displacement 0 is a word of `LD Rd,Z` (R73, R104). -/
theorem ldZ_word_of_lddZ_zero {w : Word} (h : w &&& 0xD208#16 = 0x8000#16) (hq : fieldQ6 w = 0) :
    w &&& 0xFE0F#16 = 0x8000#16 := by
  have hldd : encode (.lddZ (reg5 (fieldD5 w)) (fieldQ6 w)) = [w] :=
    encode_operandsOf (row := ⟨.lddZ, 0xD208#16, 0x8000#16, 1⟩) (own := []) (by decide) (beq_iff_eq.2 h) rfl
  rw [hq, ← encode_ldZ, encode, List.singleton_inj] at hldd
  rw [← hldd]
  exact formatRd5_and_mask _ _ _

/-- Settles O9: a word's row is the one row it matches, and the row decides about the word. -/
theorem unmatchedAndUnavailableWordsAreRefused : Obligations.UnmatchedAndUnavailableWordsAreRefused := by
  refine ⟨fun s hpc hnone => ?_, fun s row hpc hmem hw hshared hadm hav => ?_⟩
  · match hrow : rowOf (s.progWord s.pc) with
    | none => exact step_of_no_row hpc hrow
    | some row =>
      obtain ⟨hmem, hw⟩ := rowOf_cases hrow
      exact step_of_not_admitted hpc hrow (hnone row hmem (beq_iff_eq.1 hw))
  · have hz : row.name ≠ .ldZ := fun hn => by rw [hn] at hav; cases hav
    refine step_of_unavailable hpc (rowOf_eq_some hmem (beq_iff_eq.2 hw) hz) hadm hav ?_
    refine availabilityRow_operandsOf fun hn hq => hshared hn ?_
    have hldd : ∀ r ∈ opcodeMap, r.name = .lddZ → r = ⟨.lddZ, 0xD208#16, 0x8000#16, 1⟩ := by decide
    obtain rfl := hldd row hmem hn
    exact ldZ_word_of_lddZ_zero hw hq

/-! ### Operands no word names -/

theorem requireOperand_of_false {ok : Bool} (go : Result) (h : ok = false) :
    requireOperand ok go = .refused .operandOutOfRange := by
  rw [h, requireOperand_false]

/-- Settles O28: the four instructions with ill-formed terms check their registers once the device has them. -/
theorem unencodableOperandsAreRefused : Obligations.UnencodableOperandsAreRefused := by
  intro i s hwf hav
  cases i
  case movw d r => exact (requireAvailable_of_true _ hav).trans (requireOperand_of_false _ hwf)
  case adiw d K => exact (requireAvailable_of_true _ hav).trans (requireOperand_of_false _ hwf)
  case andi d K => exact requireOperand_of_false _ hwf
  case ldi d K => exact requireOperand_of_false _ hwf
  all_goals cases hwf

end Sys2Proof.Machine

/-! PROOFS. The statements of spec/40_add_adiw.md: ADD and ADIW as they compute, and their flags as arithmetic. The
flags rest on two library notions: `BitVec.carry`, the carry out of the low bits of a sum, and `BitVec.saddOverflow`,
that a sum leaves the two's complement range. -/

namespace Sys2Proof

/-! ### The carry and the sign of a sum -/

/-- The formula R80 gives for a carry from bit `i` is the carry out of the bits up to `i`. -/
theorem carry_formula {n i : Nat} (hi : i < n) (a b : BitVec n) :
    ((a.getLsbD i && b.getLsbD i) || (b.getLsbD i && !(a + b).getLsbD i) || (!(a + b).getLsbD i && a.getLsbD i)) =
      BitVec.carry (i + 1) a b false := by
  rw [BitVec.getLsbD_add hi, BitVec.carry_succ, Bool.atLeastTwo]
  cases a.getLsbD i <;> cases b.getLsbD i <;> cases BitVec.carry i a b false <;> rfl

theorem carry_eq_true_iff {n : Nat} (i : Nat) (a b : BitVec n) :
    BitVec.carry i a b false = true ↔ 2 ^ i ≤ a.toNat % 2 ^ i + b.toNat % 2 ^ i :=
  decide_eq_true_iff

/-- The carry out of all bits: the unsigned sum does not fit. -/
theorem carry_width_eq_true_iff {n : Nat} (a b : BitVec n) :
    BitVec.carry n a b false = true ↔ 2 ^ n ≤ a.toNat + b.toNat := by
  simp [BitVec.carry_width]

theorem saddOverflow_eq_true_iff {n : Nat} (a b : BitVec n) :
    BitVec.saddOverflow a b = true ↔ a.toInt + b.toInt < -2 ^ (n - 1) ∨ 2 ^ (n - 1) ≤ a.toInt + b.toInt := by
  simp [BitVec.saddOverflow, or_comm]

/-- The formula R80 gives for two's complement overflow. -/
theorem overflow_formula {n : Nat} (a b : BitVec n) :
    ((a.msb && b.msb && !(a + b).msb) || (!a.msb && !b.msb && (a + b).msb)) = BitVec.saddOverflow a b := by
  rw [BitVec.saddOverflow_eq]
  cases a.msb <;> cases b.msb <;> cases (a + b).msb <;> rfl

/-- `N ^ V` is the true sign of a sum: with no overflow the result's sign bit tells it, and with overflow both operands
have the sign the result lost. -/
theorem msb_add_xor_saddOverflow {n : Nat} (a b : BitVec n) :
    ((a + b).msb ^^ BitVec.saddOverflow a b) = decide (a.toInt + b.toInt < 0) := by
  match hov : BitVec.saddOverflow a b with
  | false => rw [Bool.xor_false, BitVec.msb_eq_toInt, BitVec.toInt_add_of_not_saddOverflow (by simp [hov])]
  | true =>
    rw [BitVec.saddOverflow_eq, Bool.and_eq_true, beq_iff_eq, Bool.not_eq_true', beq_eq_false_iff_ne] at hov
    obtain ⟨hsame, hlost⟩ := hov
    rw [BitVec.msb_eq_toInt, BitVec.msb_eq_toInt, decide_eq_decide] at hsame
    rw [Bool.xor_true, ← Bool.eq_not.2 hlost.symm, BitVec.msb_eq_toInt, decide_eq_decide]
    omega

/-- In a doubling the carry out of a bit is the bit. -/
theorem carry_self_succ {n : Nat} (i : Nat) (a : BitVec n) (c : Bool) : BitVec.carry (i + 1) a a c = a.getLsbD i := by
  rw [BitVec.carry_succ, Bool.atLeastTwo]
  cases a.getLsbD i <;> simp

/-- Doubling moves each bit one place up. -/
theorem getLsbD_add_self_succ {n i : Nat} (hi : i + 1 < n) (a : BitVec n) :
    (a + a).getLsbD (i + 1) = a.getLsbD i := by
  rw [BitVec.getLsbD_add hi, carry_self_succ, ← Bool.xor_assoc, Bool.xor_self, Bool.false_xor]

/-- The formula R80 gives for a zero result. -/
theorem zero_formula (v : Byte) :
    (v == 0) = (!v.getLsbD 7 && !v.getLsbD 6 && !v.getLsbD 5 && !v.getLsbD 4 &&
      !v.getLsbD 3 && !v.getLsbD 2 && !v.getLsbD 1 && !v.getLsbD 0) := by
  rw [Bool.eq_iff_iff, beq_iff_eq]
  simp only [Bool.and_eq_true, Bool.not_eq_true']
  constructor
  · rintro rfl
    simp
  · rintro ⟨⟨⟨⟨⟨⟨⟨h7, h6⟩, h5⟩, h4⟩, h3⟩, h2⟩, h1⟩, h0⟩
    refine BitVec.eq_of_getLsbD_eq fun i hi => ?_
    interval_cases i <;> simpa

/-! ### The words of ADD and ADIW -/

/-- A word with the fixed bits of ADD has the row of ADD (R72). -/
theorem rowOf_add {w : Word} (h : w &&& 0xFC00#16 = 0x0C00#16) : rowOf w = some ⟨.add, 0xFC00#16, 0x0C00#16, 1⟩ :=
  rowOf_eq_some (by decide) (beq_iff_eq.2 h) (by decide)

/-- A word with the fixed bits of ADIW has the row of ADIW (R72). -/
theorem rowOf_adiw {w : Word} (h : w &&& 0xFF00#16 = 0x9600#16) :
    rowOf w = some ⟨.adiw, 0xFF00#16, 0x9600#16, 1⟩ :=
  rowOf_eq_some (by decide) (beq_iff_eq.2 h) (by decide)

end Sys2Proof

namespace Sys2Proof.Machine

/-! ### Instructions that are no load -/

theorem operandRefusal_of_no_load {i : Instr} {s : State} (h : loadAddress s i = none) : operandRefusal s i = none := by
  cases i
  case ldZInc | ldZDec | lddZ => cases h
  all_goals rfl

/-- An instruction that is no load completes where the device has it and its operands can be encoded. -/
theorem exec_of_no_load {i : Instr} {s : State} (hload : loadAddress s i = none)
    (hav : available s.params (availabilityRow i) = true) (hwf : i.wf = true) :
    exec i s = .next (execFinish i 0 s.draws s) := by
  rw [exec_eq_answer, execInputs, if_pos hav, if_pos hwf, operandRefusal_of_no_load hload, hload]
  rfl

/-- What a completed instruction that is no load leaves alone, the flags apart. -/
theorem exec_frame {i : Instr} {s t : State} (h : exec i s = .next t) (hload : loadAddress s i = none) :
    t.pc = s.pc + i.words ∧ (∀ j, j ∉ regsWritten i → t.reg j = s.reg j) ∧ s.MemorySame t ∧ t.draws = s.draws := by
  have hpast := exec_past h
  refine ⟨hpast.pc, registersReadAndWrittenAreTheTable.1 i s t h, memorySame_of_eq hpast.data hpast.prog hpast.params, ?_⟩
  obtain ⟨v, n, hin, rfl⟩ := exec_next h
  rw [execInputs, operandRefusal_of_no_load hload, hload] at hin
  split_ifs at hin
  exact (Prod.mk.inj (Except.ok.inj hin)).2.symm

/-! ### ADD -/

theorem exec_add (d r : Reg) (s : State) : ∃ t, exec (.add d r) s = .next t ∧ t.reg d = s.reg d + s.reg r ∧
    t.sreg = addFlags (s.reg d) (s.reg r) (s.reg d + s.reg r) s.sreg :=
  ⟨_, exec_of_no_load rfl rfl rfl, s.reg_setReg_self d _, rfl⟩

/-- The flags of a sum: the two carries, the true sign, the overflow, and the result's sign and zero (R81). -/
theorem addFlags_add (a b : Byte) (f : Sreg) :
    addFlags a b (a + b) f = ⟨f.I, f.T, BitVec.carry 4 a b false, decide (a.toInt + b.toInt < 0),
      BitVec.saddOverflow a b, (a + b).msb, a + b == 0, BitVec.carry 8 a b false⟩ := by
  rw [← carry_formula (by decide), ← carry_formula (by decide), ← msb_add_xor_saddOverflow, ← overflow_formula]
  simp only [BitVec.msb_eq_getLsbD_last]
  rfl

/-- Settles O14: `addFlags` writes the formulas of R80, but that it compares the result with zero. -/
theorem addResultAndFlags : Obligations.AddResultAndFlags := by
  refine ⟨fun w rest hw => decode_of_row (ws := []) (rowOf_add hw) rfl rest, fun d r s => ?_⟩
  obtain ⟨t, ht, hres, hflags⟩ := exec_add d r s
  obtain ⟨hpc, hregs, hframe⟩ := exec_frame ht rfl
  refine ⟨t, ht, ?_⟩
  rw [hflags]
  refine ⟨?_, rfl, rfl, rfl, hpc, fun j hj => hregs j (by simpa [regsWritten] using hj), hframe⟩
  rintro a b res rfl rfl rfl
  rw [hres]
  exact ⟨BitVec.toNat_add .., rfl, rfl, rfl, zero_formula _, rfl⟩

/-- Settles O15, on the flags as carries, overflow and sign. -/
theorem addFlagsArithmetically : Obligations.AddFlagsArithmetically := by
  intro d r s
  obtain ⟨t, ht, hres, hflags⟩ := exec_add d r s
  refine ⟨t, ht, ?_⟩
  rw [hflags, hres, addFlags_add]
  refine ⟨carry_width_eq_true_iff _ _, carry_eq_true_iff 4 _ _, ?_, ?_, ?_, decide_eq_true_iff⟩
  · rw [saddOverflow_eq_true_iff]
    omega
  · simp [BitVec.msb_eq_decide]
  · simp [BitVec.toNat_eq]

/-- Settles O16: the two fields of the word name one register, and a doubling carries each bit into the next. -/
theorem addOfARegisterToItself : Obligations.AddOfARegisterToItself := by
  refine ⟨fun d => ⟨_, rfl, formatRdRr_and_mask _ d d, ?_⟩, fun d s => ?_⟩
  · obtain ⟨hd, hr⟩ := Instr.add.inj (operandsOf_encode (i := .add d d) rfl rfl)
    exact (Function.LeftInverse.injective bits5_reg5) (hd.trans hr.symm)
  · obtain ⟨t, ht, hres, hflags⟩ := exec_add d d s
    have htop : (s.reg d + s.reg d).msb = (s.reg d).getLsbD 6 := by
      rw [BitVec.msb_eq_getLsbD_last, getLsbD_add_self_succ (by decide)]
    refine ⟨t, ht, ?_⟩
    rw [hflags, hres, addFlags_add]
    refine ⟨?_, carry_self_succ 7 _ _, carry_self_succ 3 _ _, htop, ?_, ?_⟩
    · rw [BitVec.toNat_add, Nat.two_mul]
    · simp only [BitVec.saddOverflow_eq, htop, BitVec.msb_eq_getLsbD_last]
      cases (s.reg d).getLsbD 7 <;> cases (s.reg d).getLsbD 6 <;> rfl
    · simp only [beq_iff_eq, BitVec.ofNat_eq_ofNat, BitVec.toNat_eq, BitVec.toNat_add, BitVec.toNat_ofNat]
      omega

/-! ### ADIW -/

/-- The constant of ADIW adds as the number it is (R84). -/
theorem immediate6_toNat (K : BitVec 6) : (immediate6 K).toNat = K.toNat := BitVec.toNat_setWidth_of_le (by decide)

theorem immediate6_msb (K : BitVec 6) : (immediate6 K).msb = false := by
  have := K.isLt
  rw [BitVec.msb_eq_false_iff_two_mul_lt, immediate6_toNat]
  omega

/-- The constant of ADIW is never negative (R84). -/
theorem immediate6_toInt (K : BitVec 6) : (immediate6 K).toInt = K.toNat := by
  rw [BitVec.toInt_eq_toNat_of_msb (immediate6_msb K), immediate6_toNat]

theorem exec_adiw {d : Reg} {s : State} (K : BitVec 6) (hd : d.isUpperPair = true)
    (hav : available s.params .adiw = true) : ∃ t, exec (.adiw d K) s = .next t ∧
    t.pair d = s.pair d + immediate6 K ∧ t.sreg = adiwFlags (s.pair d) (s.pair d + immediate6 K) s.sreg :=
  ⟨_, exec_of_no_load rfl hav hd, s.pair_setPair_self d _, rfl⟩

/-- The flags of adding a word that is not negative: those of a sum, where the formulas of R84 leave out the sign bit
of the second operand (R85). -/
theorem adiwFlags_add {x k : Word} (hk : k.msb = false) (f : Sreg) :
    adiwFlags x (x + k) f = ⟨f.I, f.T, f.H, decide (x.toInt + k.toInt < 0), BitVec.saddOverflow x k, (x + k).msb,
      x + k == 0, BitVec.carry 16 x k false⟩ := by
  have hk15 : k.getLsbD 15 = false := by rwa [BitVec.msb_eq_getLsbD_last] at hk
  rw [← carry_formula (by decide), ← msb_add_xor_saddOverflow, ← overflow_formula, hk, hk15]
  simp [adiwFlags, BitVec.msb_eq_getLsbD_last]

theorem isUpperPair_of_mem {d : Reg} (h : d ∈ [(24 : Reg), 26, 28, 30]) : d.isUpperPair = true := by
  fin_cases h <;> rfl

/-- Settles O17: `adiwFlags` writes the repaired formulas of R84 on the pair. -/
theorem adiwResultAndFlags : Obligations.AdiwResultAndFlags := by
  refine ⟨fun w rest hw => ⟨_, rfl, decode_of_row (ws := []) (rowOf_adiw hw) rfl rest⟩, fun d h K s hd hh hav => ?_⟩
  obtain rfl := eq_pairHigh hh
  obtain ⟨t, ht, hres, hflags⟩ := exec_adiw K (isUpperPair_of_mem hd) hav
  obtain ⟨hpc, hregs, hframe⟩ := exec_frame ht rfl
  refine ⟨t, ht, ?_⟩
  rw [hflags]
  refine ⟨?_, rfl, rfl, rfl, rfl, hpc, fun j hl hh => hregs j (by simp [regsWritten, hl, hh]), hframe⟩
  intro x res hx hr
  obtain rfl : x = s.pair d := hx
  obtain rfl : res = t.pair d := hr
  rw [hres]
  refine ⟨?_, rfl, rfl, beq_iff_eq, rfl⟩
  rw [BitVec.toNat_add, immediate6_toNat]

/-- Settles O18, on the flags as carry, overflow and sign: `K` is not negative, so a sum overflows upward only. -/
theorem adiwFlagsArithmetically : Obligations.AdiwFlagsArithmetically := by
  intro d K s hd hav
  obtain ⟨t, ht, hres, hflags⟩ := exec_adiw K (isUpperPair_of_mem hd) hav
  refine ⟨t, ht, ?_⟩
  rw [hflags, hres, adiwFlags_add (immediate6_msb K), ← immediate6_toInt, ← immediate6_toNat]
  refine ⟨carry_width_eq_true_iff _ _, ?_, ?_, ?_, decide_eq_true_iff⟩
  · have hx := (s.pair d).le_toInt
    rw [saddOverflow_eq_true_iff, immediate6_toInt]
    omega
  · simp [BitVec.msb_eq_decide]
  · simp [BitVec.toNat_eq]

/-- Settles O19: the row of ADIW is admitted on every device, so a device that lacks it refuses the word as not
available. -/
theorem adiwIsRefusedOnAvrrc : Obligations.AdiwIsRefusedOnAvrrc := by
  have hrefused : ∀ s : State, available s.params .adiw = false → s.pc < s.params.flashWords →
      s.progWord s.pc &&& 0xFF00#16 = 0x9600#16 → step s = .refused .instructionNotAvailable :=
    fun s hav hpc hw => step_of_unavailable hpc (rowOf_adiw hw) rfl hav fun _ => rfl
  exact ⟨fun s hcore => hrefused s (by simp [available, hcore]), hrefused⟩

end Sys2Proof.Machine

/-! PROOFS. The statements of spec/41_and_andi.md: AND and ANDI. The two differ in where the second operand comes from
and in nothing else, so what they do with their result is one predicate, `State.AnswersLogic`. -/

namespace Sys2Proof

/-! ### The words of AND and ANDI -/

/-- A word with the fixed bits of AND has the row of AND (R72). -/
theorem rowOf_and {w : Word} (h : w &&& 0xFC00#16 = 0x2000#16) : rowOf w = some ⟨.and, 0xFC00#16, 0x2000#16, 1⟩ :=
  rowOf_eq_some (by decide) (beq_iff_eq.2 h) (by decide)

/-- A word with the fixed bits of ANDI has the row of ANDI (R72). -/
theorem rowOf_andi {w : Word} (h : w &&& 0xF000#16 = 0x7000#16) :
    rowOf w = some ⟨.andi, 0xF000#16, 0x7000#16, 1⟩ :=
  rowOf_eq_some (by decide) (beq_iff_eq.2 h) (by decide)

end Sys2Proof

namespace Sys2Proof.Machine

/-! ### A logical result and its flags -/

/-- `t` is `s` past a one-word instruction that leaves the logical result `v` in `Rd`, with the flags of R90 and R93,
and changes nothing else. -/
abbrev State.AnswersLogic (s : State) (d : Reg) (v : Byte) (t : State) : Prop :=
  t.reg d = v ∧
  t.sreg.V = false ∧ t.sreg.N = (t.reg d).getLsbD 7 ∧ (t.sreg.Z = true ↔ t.reg d = 0x00#8) ∧
  t.sreg.S = (t.sreg.N ^^ t.sreg.V) ∧ t.sreg.I = s.sreg.I ∧ t.sreg.T = s.sreg.T ∧ t.sreg.H = s.sreg.H ∧
  t.sreg.C = s.sreg.C ∧
  t.pc = s.pc + 1 ∧ (∀ j, j ≠ d → t.reg j = s.reg j) ∧ s.MemorySame t ∧ t.draws = s.draws

/-- A one-word instruction that is no load, and that writes `v` to `Rd` and `logicFlags v`, answers the logical
result. -/
theorem exec_answersLogic {i : Instr} {s : State} {d : Reg} {v : Byte} (hload : loadAddress s i = none)
    (hav : available s.params (availabilityRow i) = true) (hwf : i.wf = true) (hwords : i.words = 1)
    (hwrites : execWrites i 0 s = [(d, v)]) (hflags : execFlags i s = logicFlags v s.sreg) :
    ∃ t, exec i s = .next t ∧ s.AnswersLogic d v t := by
  have ht := exec_of_no_load hload hav hwf
  obtain ⟨hpc, hregs, hframe⟩ := exec_frame ht hload
  have hwritten : ∀ j, j ∈ regsWritten i ↔ j = d := fun j => by
    rw [← mem_map_fst_execWrites i 0 s, hwrites, List.map_singleton, List.mem_singleton]
  have hres : (execFinish i 0 s.draws s).reg d = v := by
    rw [execFinish, hwrites]
    exact s.reg_setReg_self d v
  refine ⟨_, ht, hres, ?_⟩
  rw [hres, exec_sreg ht, hflags]
  exact ⟨rfl, rfl, beq_iff_eq, rfl, rfl, rfl, rfl, rfl, hwords ▸ hpc, fun j hj => hregs j (hj ∘ (hwritten j).1), hframe⟩

/-- Settles O20: AND runs on every device, and its result is that of its two registers. -/
theorem andResultAndFlags : Obligations.AndResultAndFlags :=
  ⟨fun _ rest hw => decode_of_row (ws := []) (rowOf_and hw) rfl rest,
    fun _ _ _ => exec_answersLogic rfl rfl rfl rfl rfl rfl⟩

/-- Settles O21: with `d` from 16 to 31 ANDI can be encoded, and its result is that of the register and the constant. -/
theorem andiResultAndFlags : Obligations.AndiResultAndFlags :=
  ⟨fun _ rest hw => ⟨_, rfl, decode_of_row (ws := []) (rowOf_andi hw) rfl rest⟩,
    fun _ _ _ hd => exec_answersLogic rfl rfl (decide_eq_true hd) rfl rfl rfl⟩

end Sys2Proof.Machine

/-! PROOFS. The statements of spec/42_ld_ldi_lds.md: LDI, LDS and the loads through Z. Every load is one read of the
data space (`exec_load_mapped`, `exec_load_unmapped`); the loads differ in the registers they write with the byte:
`Rd` alone, or `Rd` and Z. -/

namespace Sys2Proof

/-- A word with the fixed bits of a row of one word decodes to the row's operands, whatever follows it (R72). -/
theorem decode_of_fixed_bits (m : Mnemonic) {w mask pattern : Word} (hrow : ⟨m, mask, pattern, 1⟩ ∈ opcodeMap)
    (hw : w &&& mask = pattern) (hz : m ≠ .ldZ) (rest : List Word) :
    decode (w :: rest) = .ok (operandsOf m w 0, rest) :=
  decode_of_row (ws := []) (rowOf_eq_some hrow (beq_iff_eq.2 hw) hz) rfl rest

end Sys2Proof

namespace Sys2Proof.Machine

/-! ### LDI -/

/-- Settles O27: with `d` from 16 to 31 LDI can be encoded, and it writes the constant and nothing else. -/
theorem ldiResult : Obligations.LdiResult := by
  refine ⟨fun w rest hw => ⟨_, rfl, decode_of_fixed_bits .ldi (by decide) hw (by decide) rest⟩, fun d K s hd => ?_⟩
  have ht : exec (.ldi d K) s = .next (execFinish (.ldi d K) 0 s.draws s) :=
    exec_of_no_load rfl rfl (decide_eq_true hd)
  obtain ⟨hpc, hregs, hframe⟩ := exec_frame ht rfl
  exact ⟨_, ht, s.reg_setReg_self d K, fun j hj => hregs j (by simpa [regsWritten] using hj), rfl, hpc, hframe⟩

/-! ### What every load does -/

/-- Every load can be encoded (R79). -/
theorem wf_of_load {i : Instr} {s : State} {a : Addr} (h : loadAddress s i = some a) : i.wf = true := by
  cases i
  case movw | adiw | andi | ldi => cases h
  all_goals rfl

/-- An operand refusal of the instruction's own is what it answers, where the device has it (R144). Only loads have
one. -/
theorem exec_of_operandRefusal {i : Instr} {s : State} {r : Refusal}
    (hav : available s.params (availabilityRow i) = true) (h : operandRefusal s i = some r) :
    exec i s = .refused r := by
  have hwf : i.wf = true := by
    match hload : loadAddress s i with
    | none =>
      rw [operandRefusal_of_no_load hload] at h
      cases h
    | some a => exact wf_of_load hload
  rw [exec_eq_answer, execInputs, if_pos hav, if_pos hwf, h]
  rfl

/-- No load writes a flag (R33; log entry 12). -/
theorem execFlags_of_load {i : Instr} {s : State} {a : Addr} (h : loadAddress s i = some a) :
    execFlags i s = s.sreg := by
  cases i
  case add | adiw | and | andi | lsr => cases h
  all_goals rfl

theorem readByte_unmapped {s : State} {a : Addr} (h : s.target a = .unmapped) :
    readByte s a = .error .unmappedDataAddress := by
  rw [readByte, memRead_unmapped h]
  rfl

/-- Where something is mapped, a read answers the byte there. -/
theorem readByte_mapped {s : State} {a : Addr} (h : s.target a ≠ .unmapped) :
    ∃ v n, readByte s a = .ok (v, n) ∧ s.Loads a v := by
  obtain ⟨v, t, hread⟩ := (memRead_ok_iff s a).2 h
  refine ⟨v, t.draws, by rw [readByte, hread]; rfl, ?_⟩
  rcases memRead_cases hread with ⟨ht, rfl, -⟩ | ⟨i, ht, rfl, -⟩ | ⟨j, ht, rfl, -⟩
  all_goals simp [State.Loads, ht]

section
variable {i : Instr} {s : State} {a : Addr} (hload : loadAddress s i = some a)
  (hav : available s.params (availabilityRow i) = true) (hop : operandRefusal s i = none)
include hload hav hop

/-- A load the device has and whose operands are not refused is decided by the read of its data address. -/
theorem exec_of_load : exec i s = execAnswer i s (readByte s a) := by
  rw [exec_eq_answer, execInputs, if_pos hav, if_pos (wf_of_load hload), hop, hload]

theorem exec_load_unmapped (h : s.target a = .unmapped) : exec i s = .refused .unmappedDataAddress := by
  rw [exec_of_load hload hav hop, readByte_unmapped h]
  rfl

/-- A load of a mapped address writes its registers with the byte there, moves past its words, and changes nothing else
but the count of drawn bytes. -/
theorem exec_load_mapped (h : s.target a ≠ .unmapped) :
    ∃ v t, exec i s = .next t ∧ s.Loads a v ∧ (∀ j, t.reg j = (s.setRegs (execWrites i v s)).reg j) ∧
      t.sreg = s.sreg ∧ t.pc = s.pc + i.words ∧ s.MemorySame t := by
  obtain ⟨v, n, hread, hv⟩ := readByte_mapped h
  have ht : exec i s = .next (execFinish i v n s) := by
    rw [exec_of_load hload hav hop, hread]
    rfl
  have hpast := exec_past ht
  exact ⟨v, _, ht, hv, fun _ => rfl, execFlags_of_load hload, hpast.pc,
    memorySame_of_eq hpast.data hpast.prog hpast.params⟩

/-- A load that writes `Rd` alone. -/
theorem exec_load_into {d : Reg} (hwrites : ∀ v, execWrites i v s = [(d, v)]) (h : s.target a ≠ .unmapped) :
    ∃ v t, exec i s = .next t ∧ s.Loads a v ∧ t.reg d = v ∧ (∀ j, j ≠ d → t.reg j = s.reg j) ∧
      t.sreg = s.sreg ∧ t.pc = s.pc + i.words ∧ s.MemorySame t := by
  obtain ⟨v, t, ht, hv, hreg, hframe⟩ := exec_load_mapped hload hav hop h
  rw [hwrites] at hreg
  exact ⟨v, t, ht, hv, (hreg d).trans (s.reg_setReg_self d v), fun j hj => (hreg j).trans (s.reg_setReg_ne v hj),
    hframe⟩

/-- A load that writes `Rd`, no half of Z, and moves Z to `z'`. -/
theorem exec_load_moving_z {d : Reg} {z' : Addr} (hl : d ≠ regZL) (hh : d ≠ regZH)
    (hwrites : ∀ v, s.setRegs (execWrites i v s) = (s.setReg d v).setZ z') (h : s.target a ≠ .unmapped) :
    ∃ v t, exec i s = .next t ∧ s.Loads a v ∧ t.reg d = v ∧ t.z = z' ∧
      (∀ j, j ≠ d → j ≠ regZL → j ≠ regZH → t.reg j = s.reg j) ∧
      t.sreg = s.sreg ∧ t.pc = s.pc + i.words ∧ s.MemorySame t := by
  obtain ⟨v, t, ht, hv, hreg, hframe⟩ := exec_load_mapped hload hav hop h
  rw [hwrites] at hreg
  refine ⟨v, t, ht, hv, ?_, ?_, fun j hd hjl hjh => ?_, hframe⟩
  · rw [hreg, State.setZ_reg_ne _ _ hl hh, State.reg_setReg_self]
  · rw [State.z_congr fun j _ => hreg j, State.z_setZ]
  · rw [hreg, State.setZ_reg_ne _ _ hjl hjh, State.reg_setReg_ne _ _ hd]

end

/-! ### LD through Z and LDD -/

/-- Settles O32: a word of `LD Rd,Z` is decoded as LDD with `q = 0`, which does the same. -/
theorem ldZResult : Obligations.LdZResult :=
  ⟨fun w rest hw => (rowsOverlapOnlyInLdZ.2 w rest hw).2,
    fun d s => ⟨encode_ldZ d, exec_decoded (.ldZ d) s⟩,
    fun _ _ => ⟨exec_load_into rfl rfl rfl fun _ => rfl, exec_load_unmapped rfl rfl rfl⟩⟩

/-- Settles O35: Z + q as a natural number is the address or leaves 16 bits. -/
theorem lddZResult : Obligations.LddZResult := by
  refine ⟨fun w rest hw => decode_of_fixed_bits .lddZ (by decide) hw (by decide) rest,
    fun d s => ⟨(encode_ldZ d).symm, exec_decoded (.ldZ d) s⟩, fun d q s z hz => ?_⟩
  obtain rfl : z = s.z := hz
  refine ⟨fun hcore hq => exec_of_unavailable ?_, fun hav hov => ?_, fun a hav ha => ?_⟩
  · rw [availabilityRow, lddRow_of_ne hq]
    simp [available, hcore]
  · exact exec_of_operandRefusal ((available_lddRow _ q).2 hav) (if_pos hov)
  · have hle : ¬ 0xFFFF < s.z.toNat + q.toNat := by
      have := a.isLt
      omega
    obtain rfl : a = zDisplaced s q :=
      BitVec.eq_of_toNat_eq (ha.trans (zDisplaced_toNat (decide_eq_false hle)).symm)
    have hav' := (available_lddRow s.params q).2 hav
    have hop : operandRefusal s (.lddZ d q) = none := if_neg hle
    exact ⟨exec_load_unmapped rfl hav' hop, exec_load_into rfl hav' hop fun _ => rfl⟩

/-! ### LD with Z moved -/

/-- Writes of two registers can change places. -/
theorem State.setReg_comm (s : State) {i j : Reg} (v w : Byte) (h : i ≠ j) :
    (s.setReg i v).setReg j w = (s.setReg j w).setReg i v :=
  congrArg (fun regs => { s with regs }) (Vector.set_comm _ _ (Fin.val_ne_of_ne h))

/-- So can writes of Z and of a register outside it. -/
theorem State.setReg_setZ (s : State) {d : Reg} (v : Byte) (z : Addr) (hl : d ≠ regZL) (hh : d ≠ regZH) :
    (s.setZ z).setReg d v = (s.setReg d v).setZ z := by
  simp only [State.setZ, State.setPair, pairHigh_regZL]
  rw [State.setReg_comm _ _ _ hh.symm, s.setReg_comm _ _ hl.symm]

/-- What `LD Rd,Z+` and `LD Rd,-Z` share: the refusals in their order, of an `Rd` inside Z, of Z at its last value
`bound`, and of an unmapped address; and where none of them applies, the load and the move of Z. -/
theorem exec_moving_load {i : Instr} {s : State} {d : Reg} {a bound z' : Addr} {inZ atBound : Refusal}
    (hload : loadAddress s i = some a) (hav : available s.params (availabilityRow i) = true)
    (hop : operandRefusal s i = if d = 30 ∨ d = 31 then some inZ else if s.z = bound then some atBound else none)
    (hwrites : d ≠ 30 → d ≠ 31 → ∀ v, s.setRegs (execWrites i v s) = (s.setReg d v).setZ z') :
    (d = 30 ∨ d = 31 → exec i s = .refused inZ) ∧
    (d ≠ 30 → d ≠ 31 → s.z = bound → exec i s = .refused atBound) ∧
    (d ≠ 30 → d ≠ 31 → s.z ≠ bound → s.target a = .unmapped → exec i s = .refused .unmappedDataAddress) ∧
    (d ≠ 30 → d ≠ 31 → s.z ≠ bound → s.target a ≠ .unmapped → ∃ v t, exec i s = .next t ∧
      s.Loads a v ∧ t.reg d = v ∧ t.z = z' ∧ (∀ j, j ≠ d → j ≠ 30 → j ≠ 31 → t.reg j = s.reg j) ∧
      t.sreg = s.sreg ∧ t.pc = s.pc + i.words ∧ s.MemorySame t) := by
  have hout : d ≠ 30 → d ≠ 31 → operandRefusal s i = if s.z = bound then some atBound else none :=
    fun hl hh => hop.trans (if_neg (not_or.2 ⟨hl, hh⟩))
  exact ⟨fun hd => exec_of_operandRefusal hav (hop.trans (if_pos hd)),
    fun hl hh hz => exec_of_operandRefusal hav ((hout hl hh).trans (if_pos hz)),
    fun hl hh hz => exec_load_unmapped hload hav ((hout hl hh).trans (if_neg hz)),
    fun hl hh hz => exec_load_moving_z hload hav ((hout hl hh).trans (if_neg hz)) hl hh (hwrites hl hh)⟩

/-- Settles O33: a Z below 0xFFFF is one more as a natural number too. -/
theorem ldZPostIncrementResult : Obligations.LdZPostIncrementResult := by
  refine ⟨fun w rest hw => decode_of_fixed_bits .ldZInc (by decide) hw (by decide) rest, fun d s z hz => ?_⟩
  obtain rfl : z = s.z := hz
  obtain ⟨hinZ, htop, hunmapped, hmapped⟩ :=
    exec_moving_load (i := .ldZInc d) (s := s) (z' := s.z + 1) rfl rfl rfl fun _ _ _ => rfl
  refine ⟨hinZ, htop, hunmapped, fun hl hh hne ha => ?_⟩
  obtain ⟨v, t, ht, hv, hd, hz, hframe⟩ := hmapped hl hh hne ha
  have hup : (s.z + 1).toNat = s.z.toNat + 1 := by bv_omega
  exact ⟨v, t, ht, hv, hd, (congrArg BitVec.toNat hz).trans hup, hframe⟩

/-- Settles O34: a Z above 0 is one less as a natural number too, and the byte is that of the state before. -/
theorem ldZPreDecrementResult : Obligations.LdZPreDecrementResult := by
  refine ⟨fun w rest hw => decode_of_fixed_bits .ldZDec (by decide) hw (by decide) rest, fun d s z hz => ?_⟩
  obtain rfl : z = s.z := hz
  obtain ⟨hinZ, hbottom, hunmapped, hmapped⟩ :=
    exec_moving_load (i := .ldZDec d) (s := s) (z' := s.z - 1) rfl rfl rfl fun hl hh v => s.setReg_setZ v _ hl hh
  refine ⟨hinZ, hbottom, hunmapped, fun hl hh hne ha => ?_⟩
  obtain ⟨v, t, ht, hv, hd, hz, hframe⟩ := hmapped hl hh hne ha
  have hdown : (s.z - 1).toNat + 1 = s.z.toNat := by bv_omega
  exact ⟨v, t, ht, hv, hd, (congrArg (BitVec.toNat · + 1) hz).trans hdown, hframe⟩

/-! ### LDS -/

/-- Settles O36: a load of its second word's address, which at the last word of program memory is not there. -/
theorem ldsResult : Obligations.LdsResult :=
  ⟨fun _ w2 rest hw => decode_of_row (ws := [w2]) (rowOf_lds hw) rfl rest,
    fun _ _ _ hav => ⟨exec_load_into rfl hav rfl fun _ => rfl, exec_load_unmapped rfl hav rfl,
      fun hpc hw => step_of_lds_at_last hpc hw hav⟩⟩

theorem State.setReg_reg_self (s : State) (i : Reg) : s.setReg i (s.reg i) = s := by
  simp [State.setReg, State.reg]

/-- Settles O37: the byte at the address is the register's, so both write it to `Rd`; a register written with its own
byte is unchanged. -/
theorem ldsFromAMappedRegisterIsAMove : Obligations.LdsFromAMappedRegisterIsAMove := by
  intro d i k s hav hi
  have hlds : exec (.lds d k) s = .next ((s.setReg d (s.reg i)).advance 2) :=
    (requireAvailable_of_true _ hav).trans (withByteAt_of_ok _ (memRead_reg hi))
  refine ⟨_, _, hlds, rfl, rfl, ?_⟩
  rintro rfl
  rw [s.setReg_reg_self]
  rfl

end Sys2Proof.Machine

/-! PROOFS. The statements of spec/43_lsr.md: LSR as it computes, and its reading as division by two. -/

namespace Sys2Proof.Machine

/-- Every device has LSR and every register can be its operand, so it always completes (R115). -/
theorem exec_lsr (d : Reg) (s : State) : ∃ t, exec (.lsr d) s = .next t ∧ t.reg d = s.reg d >>> 1 ∧
    t.sreg = lsrFlags (s.reg d) (s.reg d >>> 1) s.sreg :=
  ⟨_, exec_of_no_load rfl rfl rfl, s.reg_setReg_self d _, rfl⟩

/-- Settles O22: the shifted byte has a 0 above the upper seven bits of the register, and `lsrFlags` writes the formulas
of R115 on it. -/
theorem lsrResultAndFlags : Obligations.LsrResultAndFlags := by
  refine ⟨fun w rest hw => decode_of_fixed_bits .lsr (by decide) hw (by decide) rest, fun d s => ?_⟩
  obtain ⟨t, ht, hres, hflags⟩ := exec_lsr d s
  obtain ⟨hpc, hregs, hframe⟩ := exec_frame ht rfl
  have hshift : s.reg d >>> 1 = 0#1 ++ (s.reg d).extractLsb' 1 7 :=
    BitVec.ushiftRight_eq_extractLsb'_of_lt (by decide)
  refine ⟨t, ht, hres.trans hshift, ?_⟩
  rw [hflags, hres]
  exact ⟨rfl, rfl, beq_iff_eq, rfl, rfl, rfl, rfl, rfl, hpc, fun j hj => hregs j (by simpa [regsWritten] using hj),
    hframe⟩

/-- Settles O23: a shift by one place is division by two, and the bit it shifts out is the remainder. -/
theorem lsrArithmetically : Obligations.LsrArithmetically := by
  intro d s
  obtain ⟨t, ht, hres, hflags⟩ := exec_lsr d s
  have hhalf : (t.reg d).toNat = (s.reg d).toNat / 2 := by
    rw [hres, BitVec.toNat_ushiftRight, Nat.shiftRight_eq_div_pow, Nat.pow_one]
  have hrem : t.sreg.C.toNat = (s.reg d).toNat % 2 := by
    rw [hflags]
    exact (Nat.toNat_testBit _ 0).trans (by rw [Nat.pow_zero, Nat.div_one])
  refine ⟨t, ht, hhalf, hrem, ?_⟩
  rw [hhalf, hrem, Nat.div_add_mod]

end Sys2Proof.Machine

/-! PROOFS. The statements of spec/44_mov_movw.md: MOV and MOVW. A copy onto another register leaves its source alone by
the frame, and a copy onto the source itself by the result; two even pairs are the same or share no register, so this
holds of a pair as of a register. -/

namespace Sys2Proof.Machine

/-! ### MOV -/

/-- Every device has MOV and every register can be its operand, so it always completes (R120). -/
theorem exec_mov (d r : Reg) (s : State) :
    ∃ t, exec (.mov d r) s = .next t ∧ t.reg d = s.reg r ∧ t.sreg = s.sreg :=
  ⟨_, exec_of_no_load rfl rfl rfl, s.reg_setReg_self d _, rfl⟩

/-- Settles O24: MOV writes `Rd` alone, and where that is the source it writes the byte that is there. -/
theorem movResult : Obligations.MovResult := by
  refine ⟨fun w rest hw => decode_of_fixed_bits .mov (by decide) hw (by decide) rest, fun d r s => ?_⟩
  obtain ⟨t, ht, hres, hflags⟩ := exec_mov d r s
  obtain ⟨hpc, hregs, hframe⟩ := exec_frame ht rfl
  have hkeep : ∀ j, j ≠ d → t.reg j = s.reg j := fun j hj => hregs j (by simpa [regsWritten] using hj)
  have hsource : t.reg r = s.reg r := by
    rcases eq_or_ne r d with rfl | hrd
    · exact hres
    · exact hkeep r hrd
  exact ⟨t, ht, hres, hsource, hkeep, hflags, hpc, hframe⟩

/-! ### MOVW -/

/-- Two pairs of even low registers are the same pair or share no register (R67). -/
theorem even_pairs_eq_or_disjoint {d dh r rh : Reg} (hd : d.val % 2 = 0) (hr : r.val % 2 = 0)
    (hdh : dh.val = d.val + 1) (hrh : rh.val = r.val + 1) :
    (r = d ∧ rh = dh) ∨ ((r ≠ d ∧ r ≠ dh) ∧ (rh ≠ d ∧ rh ≠ dh)) := by
  simp only [Fin.ext_iff, ne_eq]
  omega

/-- Where the device has MOVW, an even pair takes the bytes of an even pair, and no flag changes (R122). -/
theorem exec_movw {d r : Reg} {s : State} (hd : d.val % 2 = 0) (hr : r.val % 2 = 0)
    (hav : available s.params .movw = true) : ∃ t, exec (.movw d r) s = .next t ∧
    t.reg d = s.reg r ∧ t.reg (pairHigh d) = s.reg (pairHigh r) ∧ t.sreg = s.sreg :=
  ⟨_, exec_of_no_load rfl hav (Bool.and_eq_true_iff.2 ⟨decide_eq_true hd, decide_eq_true hr⟩),
    (s.setPair_reg_low d _).trans (s.pair_low r), (s.setPair_reg_high d _).trans (s.pair_high r), rfl⟩

/-- Settles O25: MOVW writes the destination pair alone, which is the source pair or shares no register with it. -/
theorem movwResult : Obligations.MovwResult := by
  refine ⟨fun w rest hw => ⟨_, _, rfl, rfl, decode_of_fixed_bits .movw (by decide) hw (by decide) rest⟩,
    fun d dh r rh s hd hr hdh hrh hav => ?_⟩
  have hpairs := even_pairs_eq_or_disjoint hd hr hdh hrh
  obtain rfl := eq_pairHigh hdh
  obtain rfl := eq_pairHigh hrh
  obtain ⟨t, ht, hlow, hhigh, hflags⟩ := exec_movw hd hr hav
  obtain ⟨hpc, hregs, hframe⟩ := exec_frame ht rfl
  have hkeep : ∀ j, j ≠ d → j ≠ pairHigh d → t.reg j = s.reg j :=
    fun j hl hh => hregs j (by simp [regsWritten, hl, hh])
  obtain ⟨hsourceLow, hsourceHigh⟩ : t.reg r = s.reg r ∧ t.reg (pairHigh r) = s.reg (pairHigh r) := by
    rcases hpairs with ⟨rfl, -⟩ | ⟨⟨hrl, hrh⟩, hhl, hhh⟩
    · exact ⟨hlow, hhigh⟩
    · exact ⟨hkeep _ hrl hrh, hkeep _ hhl hhh⟩
  exact ⟨t, ht, hlow, hhigh, hsourceLow, hsourceHigh, hkeep, hflags, hpc, hframe⟩

/-- Settles O26: the row of MOVW is admitted on every device, so a device that lacks it refuses the word as not
available. -/
theorem movwIsRefusedWhereMissing : Obligations.MovwIsRefusedWhereMissing :=
  fun _ hlacks hpc hw =>
    step_of_unavailable (row := ⟨.movw, 0xFF00#16, 0x0100#16, 1⟩) hpc
      (rowOf_eq_some (by decide) (beq_iff_eq.2 hw) (by decide)) rfl hlacks fun _ => rfl

end Sys2Proof.Machine

/-! PROOFS. The statements of spec/60_exceptions.md: the order of a step's checks, the reasons it is refused for, and
that it takes no exception. A step is refused by the fetch (`fetchInstr_error`) or by the meaning of the well-formed
instruction it fetched (`exec_refused`). -/

namespace Sys2Proof.Machine

/-! ### The checks of a step in order -/

/-- An entry of `AVAILABLE` that is false is that of the word's row: `LDD Rd,Z+0`, which goes by another, is on every
device (R104). -/
theorem availabilityRow_of_unavailable {p : Params} {m : Mnemonic} {w w2 : Word}
    (h : available p (availabilityRow (operandsOf m w w2)) = false) (w2' : Word) :
    availabilityRow (operandsOf m w w2') = m := by
  refine availabilityRow_operandsOf (fun hm hq => ?_) w2'
  subst hm
  rw [operandsOf, availabilityRow, hq] at h
  cases h

/-- Only LDS takes an operand from a second word (R70). -/
theorem operandsOf_eq_of_ne_lds {m : Mnemonic} (h : m ≠ .lds) (w w2 w2' : Word) :
    operandsOf m w w2 = operandsOf m w w2' := by
  cases m
  case lds => exact absurd rfl h
  all_goals rfl

/-- Where the row of the word at `pc` is admitted and its words lie inside program memory, a step is the meaning of the
row's instruction. -/
theorem step_of_row {s : State} {row : OpcodeRow} (hrow : rowOf (s.progWord s.pc) = some row)
    (hadm : admitted s.params row.name = true) (hin : s.pc + row.words ≤ s.params.flashWords) :
    step s = exec (operandsOf row.name (s.progWord s.pc) (s.progWord (s.pc + 1))) s := by
  obtain ⟨hmem, hw⟩ := rowOf_cases hrow
  rcases one_word_row_or_lds hmem with ⟨hone, hlds⟩ | rfl
  · rw [operandsOf_eq_of_ne_lds hlds _ _ 0]
    exact stepRunsTheDecodedInstruction s _ _ (decode_of_row (ws := []) hrow hone.symm _)
      (by rwa [operandsOf_words hmem]) (by rwa [operandsOf_mnemonic])
  · exact step_of_lds hin (beq_iff_eq.1 hw)

/-- A two-word row the device has, at the last word of program memory, lacks its second word: the row is that of LDS
(R44, R60). -/
theorem step_of_row_cut_off {s : State} {row : OpcodeRow} (hpc : s.pc + 1 = s.params.flashWords)
    (hrow : rowOf (s.progWord s.pc) = some row) (htwo : row.words = 2)
    (hav : available s.params (availabilityRow (operandsOf row.name (s.progWord s.pc) 0)) = true) :
    step s = .refused .fetchOutsideProgramMemory := by
  obtain ⟨hmem, hw⟩ := rowOf_cases hrow
  rcases one_word_row_or_lds hmem with ⟨hone, -⟩ | rfl
  · omega
  · exact step_of_lds_at_last hpc (beq_iff_eq.1 hw) hav

/-- An instruction that passes every check completes. -/
theorem exec_of_checks_passed {i : Instr} {s : State} (hwf : i.wf = true)
    (hav : available s.params (availabilityRow i) = true) (hop : operandRefusal s i = none)
    (hmapped : ∀ a, loadAddress s i = some a → s.target a ≠ .unmapped) : ∃ t, exec i s = .next t := by
  match hload : loadAddress s i with
  | none => exact ⟨_, exec_of_no_load hload hav hwf⟩
  | some a =>
    obtain ⟨v, t, ht, -⟩ := exec_load_mapped hload hav hop (hmapped a hload)
    exact ⟨t, ht⟩

/-- Settles O10, check by check. -/
theorem checksAreMadeInOrder : Obligations.ChecksAreMadeInOrder := by
  refine ⟨fun s => ?_, fun i s hwf hav => ?_⟩
  · split
    · next hpc => exact step_of_flashWords_le hpc
    · next hpc =>
      replace hpc : s.pc < s.params.flashWords := Nat.lt_of_not_le hpc
      split
      · next hrow => exact step_of_no_row hpc hrow
      · next row hrow =>
        split_ifs with hadm hav hcut
        · exact step_of_not_admitted hpc hrow hadm
        · have hself := availabilityRow_of_unavailable hav
          rw [hself] at hav
          exact step_of_unavailable hpc hrow (eq_true_of_ne_false hadm) hav hself
        · obtain ⟨htwo, hend⟩ := hcut
          exact step_of_row_cut_off (by omega) hrow htwo (eq_true_of_ne_false hav)
        · have hwords := rowOf_words hrow
          exact step_of_row hrow (eq_true_of_ne_false hadm) (by omega)
  · split
    · next r hop => exact exec_of_operandRefusal hav hop
    · next hop =>
      exact ⟨fun ⟨_, hload, ht⟩ => exec_load_unmapped hload hav hop ht, exec_of_checks_passed hwf hav hop⟩

/-! ### The reasons of a refusal -/

/-- The reasons the fetch refuses for: the checks (1) to (4) of R144. -/
theorem fetchInstr_error {s : State} {r : Refusal} (h : fetchInstr s = .error r) :
    r ∈ [Refusal.fetchOutsideProgramMemory, .noRuleForWord, .instructionNotAvailable] := by
  unfold fetchInstr at h
  split at h
  · cases h; decide
  · cases h; decide
  · split_ifs at h <;> cases h <;> decide
  · split_ifs at h; cases h; decide

/-- The reasons an instruction's own operands refuse it for (R102 to R105). -/
theorem operandRefusal_mem {s : State} {i : Instr} {r : Refusal} (h : operandRefusal s i = some r) :
    r ∈ [Refusal.ldPostincIntoZ, .ldPredecIntoZ, .zPointerOverflow, .zPointerUnderflow, .zDisplacementOverflow] := by
  cases i
  case ldZInc | ldZDec | lddZ =>
    simp only [operandRefusal] at h
    split_ifs at h <;> cases h <;> decide
  all_goals cases h

/-- Everything a well-formed instruction can be refused for. -/
theorem exec_refused {i : Instr} {s : State} {r : Refusal} (hwf : i.wf = true) (h : exec i s = .refused r) :
    (available s.params (availabilityRow i) = false ∧ r = .instructionNotAvailable) ∨
    operandRefusal s i = some r ∨
    (∃ a, loadAddress s i = some a ∧ s.target a = .unmapped) ∧ r = .unmappedDataAddress := by
  match hav : available s.params (availabilityRow i) with
  | false =>
    rw [exec_of_unavailable hav] at h
    cases h
    exact .inl ⟨rfl, rfl⟩
  | true =>
    refine .inr ?_
    match hop : operandRefusal s i with
    | some r' =>
      rw [exec_of_operandRefusal hav hop] at h
      cases h
      exact .inl rfl
    | none =>
      by_cases hunmapped : ∃ a, loadAddress s i = some a ∧ s.target a = .unmapped
      · obtain ⟨a, hload, ht⟩ := hunmapped
        rw [exec_load_unmapped hload hav hop ht] at h
        cases h
        exact .inr ⟨⟨a, hload, ht⟩, rfl⟩
      · obtain ⟨t, ht⟩ := exec_of_checks_passed hwf hav hop fun a hload ht => hunmapped ⟨a, hload, ht⟩
        rw [ht] at h
        cases h

/-- Settles O11: a refusal is the fetch's, or that of an instruction some word decodes to, which is well-formed. -/
theorem stepRefusalsAreTheListedOnes : Obligations.StepRefusalsAreTheListedOnes := by
  intro s r h
  match hfetch : fetchInstr s with
  | .error r' =>
    rw [step_of_fetch_error hfetch] at h
    cases h
    exact List.mem_append_left _ (fetchInstr_error hfetch)
  | .ok i =>
    rw [step_of_fetch hfetch] at h
    obtain ⟨rest, hdecode, -⟩ := fetchInstr_ok hfetch
    have hwf : i.wf = true := (decodedInstructionsAreWellFormed _ _ _ hdecode).1
    rcases exec_refused hwf h with ⟨-, rfl⟩ | hop | ⟨-, rfl⟩
    · decide
    · exact List.mem_append_right [_, _, _, _] (operandRefusal_mem hop)
    · decide

/-- Settles O12: a completed step is past the one or two words of its instruction, a refused one has a reason of R141's
list, and there is no fault to end in. -/
theorem noStepTakesAnException : Obligations.NoStepTakesAnException := by
  intro s
  match hstep : step s with
  | .fault r => cases r
  | .refused r => exact .inr ⟨r, stepRefusalsAreTheListedOnes s r hstep, rfl⟩
  | .next t =>
    obtain ⟨i, -, hexec⟩ := step_next hstep
    have hpast := exec_past hexec
    have hpc : t.pc = s.pc + 1 ∨ t.pc = s.pc + 2 := by
      rw [hpast.pc]
      exact i.words_eq.imp (congrArg _) (congrArg _)
    exact .inl ⟨t, rfl, hpc, hpast.I, hpast.T, hpast.data, hpast.prog⟩

/-! ### The interrupt flag -/

/-- Settles O46: no instruction writes `I` or `T`. -/
theorem noRunChangesTheInterruptFlag : Obligations.NoRunChangesTheInterruptFlag :=
  fun _ _ _ h => ⟨run_keeps (·.sreg.I) State.Past.I h, run_keeps (·.sreg.T) State.Past.T h⟩

end Sys2Proof.Machine

/-! PROOFS. The statements of spec/70_reset_and_hazards.md: the state after reset, and how a run ends. -/

namespace Sys2Proof.Machine

/-! ### How a run ends -/

/-- Only the check for `END_PC`, made in the state a run stands in, ends it in a final state (R163). -/
theorem isFinal_of_runToEnd {n : Nat} {s t : State} (h : runToEnd n s = .final t) : t.IsFinal := by
  induction n generalizing s with
  | zero =>
    rw [runToEnd] at h
    split_ifs at h with hfinal
    cases h
    exact hfinal
  | succ n ih =>
    by_cases hfinal : s.IsFinal
    · rw [runToEnd_of_final hfinal] at h
      cases h
      exact hfinal
    · match hstep : step s with
      | .fault r => cases r
      | .refused r =>
        rw [runToEnd_succ_of_refused hfinal hstep] at h
        cases h
      | .next u =>
        rw [runToEnd_succ_of_next hfinal hstep] at h
        exact ih h

/-- Settles O53: a run looks for `END_PC` before each step. -/
theorem runEndsWhenEndPcIsReached : Obligations.RunEndsWhenEndPcIsReached :=
  ⟨fun n _ h => runToEnd_of_final h n, fun n _ _ hf h => runToEnd_succ_of_next hf h n,
    fun n _ _ hf h => runToEnd_succ_of_refused hf h n, fun _ _ _ => isFinal_of_runToEnd⟩

/-- The measure that makes every run end: a completed step leaves fewer words of program memory ahead, since it moves
`pc` forward past words that lie inside program memory. -/
theorem step_wordsAhead_lt {s t : State} (h : step s = .next t) :
    t.params.flashWords - t.pc < s.params.flashWords - s.pc := by
  obtain ⟨i, hfetch, hexec⟩ := step_next h
  have hin := pc_add_words_le_of_fetch hfetch
  have hpast := exec_past hexec
  have hwords := i.words_eq
  rw [hpast.params, hpast.pc]
  omega

/-- By induction on the steps allowed: each one taken leaves fewer words of program memory ahead, so that with more
steps than words the run is not cut short. -/
theorem runToEnd_final_or_refused {n : Nat} {s : State} (hn : s.params.flashWords - s.pc < n) :
    (∃ t, runToEnd n s = .final t) ∨ ∃ r, runToEnd n s = .refused r := by
  induction n generalizing s with
  | zero => exact absurd hn (Nat.not_lt_zero _)
  | succ n ih =>
    by_cases hfinal : s.IsFinal
    · exact .inl ⟨s, runToEnd_of_final hfinal _⟩
    · match hstep : step s with
      | .fault r => cases r
      | .refused r => exact .inr ⟨r, runToEnd_succ_of_refused hfinal hstep n⟩
      | .next t =>
        rw [runToEnd_succ_of_next hfinal hstep]
        exact ih ((step_wordsAhead_lt hstep).trans_le (Nat.le_of_lt_succ hn))

/-- Settles O54: one step more than there are words ahead is enough. -/
theorem everyRunEnds : Obligations.EveryRunEnds := fun _ =>
  (runToEnd_final_or_refused (Nat.lt_succ_self _)).imp_left fun ⟨t, ht⟩ => ⟨t, ht, isFinal_of_runToEnd ht⟩

/-! ### The state after reset -/

theorem reset_reg (i : Reg) : State.reset.reg i = 0 := by
  simp [State.reg, State.reset]

/-- Settles O50: the parameters are lawful by the invariant, and the other values are those the model gives. -/
theorem resetStartsAtStartPc : Obligations.ResetStartsAtStartPc := by
  obtain ⟨-, -, -, -, hparams, -⟩ := invariantHoldsAtReset
  exact ⟨⟨rfl, hparams⟩, rfl, by decide, reset_reg, rfl⟩

end Sys2Proof.Machine
